-- ==== Sys2Proof/Word.lean ====
section
/-! DEFINITION. The word types of the block and the plain arithmetic of rule R10 (00_scope.md): bytes of a frame,
32-bit command and response words, 32-bit counters that wrap. -/

namespace Sys2Proof

/-- A byte of a frame, an actuator value or a countdown (R9). -/
abbrev Byte := BitVec 8

/-- A command, data or response word, and the width `CTR_WIDTH` of every counter (R7, R87). -/
abbrev Word := BitVec 32

/-- `inc32(c)` of R10: a counter wraps at 2^32 (R385). -/
def inc32 (c : Word) : Word := c + 1

end Sys2Proof
end

