-- ==== Sys2Proof/Config.lean ====
section
/-! DEFINITION. The parameters of the step relation (R35): the configuration record of R7, and what the agents outside
the block supply (R6): timestamps, the schedule, host command words, captures, and the order of the build's reads. -/

namespace Sys2Proof

/-- The configuration record `cfg` of R7. Nothing writes it after reset (D49). The three fields with a default carry
the spec's own decided default (D21, D22, D27); the others are OPEN (D40 to D42). -/
structure Config where
  /-- `N`, the maximum number of supported devices (D40). -/
  maxDevices : Nat
  /-- `SCAN_INTERVAL_US` (D41). -/
  scanIntervalUs : Nat
  t0h : Nat
  t0l : Nat
  t1h : Nat
  t1l : Nat
  shMin : Nat
  shMax : Nat
  lhMin : Nat
  lhMax : Nat
  spMin : Nat
  spMax : Nat
  /-- `SELFTEST_TAIL_CYCLES`. -/
  selftestTail : Nat := 2
  /-- `CLIENT_COUNTDOWN_SHARED`. -/
  clientCountdownShared : Bool := true
  /-- `DISCOVERY_SETTLE_US`. -/
  discoverySettleUs : Nat := 50000
deriving DecidableEq, Repr

namespace Config

/-- `CAP = N + 1`: the positions are 0 … CAP − 1, the last one the guard slot (R7, R69). -/
def cap (c : Config) : Nat := c.maxDevices + 1

/-- `WINDOW_US` of R7: the source's 1-second window. -/
def windowUs : Nat := 1000000

/-- `CRC_INIT` of R7 (D4). -/
def crcInit : BitVec 4 := 0

/-- `EXPECTED_FIRST_LEVEL` of R7 (D8). -/
def expectedFirstLevel : Bool := true

/-- `FRAME_BITS` of R7. -/
abbrev frameBits : Nat := 64

/-- The example configuration of 95_test_vectors.md §1, which the spec calls not normative. DESIGN CHOICE (log 1):
`State.reset` is the reset state of a block created with it; every statement about the block is made for every
configuration. -/
def vectors : Config where
  maxDevices := 3
  scanIntervalUs := 250000
  t0h := 2
  t0l := 6
  t1h := 6
  t1l := 2
  shMin := 1
  shMax := 3
  lhMin := 5
  lhMax := 7
  spMin := 7
  spMax := 9

end Config

/-- A pulse of R85: the line holds `level0` for `dur0` PHY ticks, then `level1` for `dur1`. -/
structure Pulse where
  level0 : Bool
  dur0 : Nat
  level1 : Bool
  dur1 : Nat
deriving DecidableEq, Repr, Inhabited

/-- What one agent does when it is scheduled (R6). Destroying the channel is no move (R383; log 9). -/
inductive Move where
  /-- SC takes its next step; `pick` is the free choice of R203, read modulo the number of pending reads. -/
  | sc (pick : Nat)
  /-- Host agent `h` issues one command: the command word and the data word that follows it (R87). -/
  | host (h : Nat) (w0 dw : Word)
  /-- `ENV_PUT(c)` of R171. -/
  | envPut (c : List Pulse)
  /-- A host, which is not named, consumes the event at the head of `EVQ` (R347; log 13). -/
  | takeEvent
  /-- Only time elapses (R5). -/
  | elapse
deriving DecidableEq, Repr, Inhabited

/-- One entry of the schedule: the time that passes before the move, then the move (R6: timestamps never decrease). -/
structure Input where
  dt : Nat
  move : Move
deriving DecidableEq, Repr, Inhabited

/-- FREE VALUE (log 2): the `n`-th entry the agents outside the block supply when the state lists none. Nothing
constrains it: any agent, any capture, any command word, any time, any order (R6, R171, I7 to I10). -/
opaque Config.freeInput : Nat → Input

end Sys2Proof
end

