-- ==== Sys2Proof/Syntax.lean ====
section
/-! DEFINITION. The host commands: one constructor of `Instr` per row of spec/opcode_table.json, with the operands of
R88 and R89 at their own widths; their mnemonics and formats; the pseudo-commands of R97. -/

namespace Sys2Proof

/-- The host commands (R90). `a` is a slot address, `i` an actuator index, a `Bool` the operand `v[0]`. -/
inductive Instr where
  | enable
  | disable
  | discover
  | setThresholds (high low : BitVec 16)
  | getStats (reset : Bool)
  | getSlotCount
  | getSlotHandle (a : Byte)
  | setCtrlBlock (v : Bool)
  | getChannelState
  | setActValue (a : Byte) (i : BitVec 2) (v : Byte)
  | setActMode (a : Byte) (i : BitVec 2) (m : BitVec 3)
  | setSlotEnable (a : Byte) (v : Bool)
  | setInvServerCrc (a : Byte) (v : Bool)
  | setInvClientCrc (a : Byte) (v : Bool)
  | readSensor (a : Byte)
  | readStatus (a : Byte)
  | getSlotStats (a : Byte) (reset : Bool)
  | readTxFrame (a : Byte)
  | readRxFrame (a : Byte)
deriving DecidableEq, Repr

/-- The names of the opcode map's rows (R90). -/
inductive Mnemonic where
  | enable | disable | discover | setThresholds | getStats | getSlotCount | getSlotHandle | setCtrlBlock
  | getChannelState | setActValue | setActMode | setSlotEnable | setInvServerCrc | setInvClientCrc
  | readSensor | readStatus | getSlotStats | readTxFrame | readRxFrame
deriving DecidableEq, Repr

/-- The formats of R88. -/
inductive Format where
  | N | V | A | AV | AIV | AIM | W
deriving DecidableEq, Repr

/-- The format of each command (R90). -/
def Mnemonic.format : Mnemonic → Format
  | .enable | .disable | .discover | .getSlotCount | .getChannelState => .N
  | .getStats | .setCtrlBlock => .V
  | .getSlotHandle | .readSensor | .readStatus | .readTxFrame | .readRxFrame => .A
  | .setSlotEnable | .setInvServerCrc | .setInvClientCrc | .getSlotStats => .AV
  | .setActValue => .AIV
  | .setActMode => .AIM
  | .setThresholds => .W

def Instr.mnemonic : Instr → Mnemonic
  | .enable => .enable
  | .disable => .disable
  | .discover => .discover
  | .setThresholds _ _ => .setThresholds
  | .getStats _ => .getStats
  | .getSlotCount => .getSlotCount
  | .getSlotHandle _ => .getSlotHandle
  | .setCtrlBlock _ => .setCtrlBlock
  | .getChannelState => .getChannelState
  | .setActValue _ _ _ => .setActValue
  | .setActMode _ _ _ => .setActMode
  | .setSlotEnable _ _ => .setSlotEnable
  | .setInvServerCrc _ _ => .setInvServerCrc
  | .setInvClientCrc _ _ => .setInvClientCrc
  | .readSensor _ => .readSensor
  | .readStatus _ => .readStatus
  | .getSlotStats _ _ => .getSlotStats
  | .readTxFrame _ => .readTxFrame
  | .readRxFrame _ => .readRxFrame

/-- The number of words of a command: SET_THRESHOLDS is two, every other row one (R91). -/
def Mnemonic.length (m : Mnemonic) : Nat := if m.format = .W then 2 else 1

/-- The slot address of a command of format A, AV, AIV or AIM (R88, R280). -/
def Instr.slot? : Instr → Option Byte
  | .getSlotHandle a | .readSensor a | .readStatus a | .readTxFrame a | .readRxFrame a => some a
  | .setSlotEnable a _ | .setInvServerCrc a _ | .setInvClientCrc a _ | .getSlotStats a _ => some a
  | .setActValue a _ _ | .setActMode a _ _ => some a
  | .enable | .disable | .discover | .setThresholds _ _ | .getStats _ | .getSlotCount | .setCtrlBlock _
  | .getChannelState => none

/-- The pseudo-commands of R97. -/
inductive Pseudo where
  | clearStats
  | setActuator (a : Byte) (i : BitVec 2) (val : Byte) (mode : BitVec 3)
  | selftestServerOn (a : Byte)
  | selftestServerOff (a : Byte)
  | selftestClientOn (a : Byte)
  | selftestClientOff (a : Byte)
  | disableHysteresis
deriving DecidableEq, Repr

/-- The commands a pseudo-command stands for, issued in order by one host and not atomic together (R97). -/
def Pseudo.expand : Pseudo → List Instr
  | .clearStats => [.getStats true]
  | .setActuator a i val mode => [.setActValue a i val, .setActMode a i mode]
  | .selftestServerOn a => [.setInvServerCrc a true]
  | .selftestServerOff a => [.setInvServerCrc a false]
  | .selftestClientOn a => [.setInvClientCrc a true]
  | .selftestClientOff a => [.setInvClientCrc a false]
  | .disableHysteresis => [.setThresholds 0 0]

end Sys2Proof
end

