-- ==== Sys2Proof/WellFormed.lean ====
section
/-! DEFINITION. What is admitted: a configuration (R8), and a command as an assembler writes it, with plain numbers
for operands (R96). `Instr` carries its operands at their field widths, so an `Instr` is a command that passed. -/

namespace Sys2Proof

namespace Config

/-- R8 condition 1: every slot address fits the 8-bit address field. -/
def devicesOk (c : Config) : Bool := 1 ≤ c.maxDevices && c.maxDevices ≤ 255

/-- R8 condition 2. -/
def intervalOk (c : Config) : Bool := 0 < c.scanIntervalUs

/-- R8 condition 3: a transmitted 1 is received as 1. -/
def oneOk (c : Config) : Bool :=
  c.lhMin ≤ c.t1h && c.t1h ≤ c.lhMax && c.spMin ≤ c.t1h + c.t1l && c.t1h + c.t1l ≤ c.spMax

/-- R8 condition 4: a transmitted 0 is received as 0. -/
def zeroOk (c : Config) : Bool :=
  c.shMin ≤ c.t0h && c.t0h ≤ c.shMax && !(c.lhMin ≤ c.t0h && c.t0h ≤ c.lhMax) &&
    c.spMin ≤ c.t0h + c.t0l && c.t0h + c.t0l ≤ c.spMax

/-- R8 condition 5. -/
def tailOk (c : Config) : Bool := c.selftestTail ≤ 255

/-- The value column of R7: every transmitted duration is greater than 0. -/
def durationsOk (c : Config) : Bool := 0 < c.t0h && 0 < c.t0l && 0 < c.t1h && 0 < c.t1l

/-- A configuration is admitted only if every condition holds; the step refuses any other (R8, R360).
DEDUCED (log 3): the durations' column of R7 is a condition beside the five of R8. -/
def wellFormed (c : Config) : Bool :=
  c.devicesOk && c.intervalOk && c.oneOk && c.zeroOk && c.tailOk && c.durationsOk

end Config

/-- A command as an assembler reads it: `MNEMONIC operands`, the operands in the order `a, i, v` (for SET_THRESHOLDS
high, low) and only those the format uses (R96). -/
structure AsmLine where
  mnemonic : Mnemonic
  operands : List Nat
deriving DecidableEq, Repr

/-- One past the largest value of each operand of a format, in order (R88, R89). -/
def Format.bounds : Format → List Nat
  | .N => []
  | .V => [2]
  | .A => [256]
  | .AV => [256, 2]
  | .AIV => [256, 4, 256]
  | .AIM => [256, 4, 8]
  | .W => [65536, 65536]

/-- The operand list has the format's length. -/
def AsmLine.arityOk (l : AsmLine) : Bool := l.operands.length == l.mnemonic.format.bounds.length

/-- Every operand lies in its field's range. -/
def AsmLine.rangeOk (l : AsmLine) : Bool := (l.operands.zip l.mnemonic.format.bounds).all fun x => x.1 < x.2

/-- An operand out of its field's range is an assembly error (R96). -/
def AsmLine.wellFormed (l : AsmLine) : Bool := l.arityOk && l.rangeOk

/-- The command of a line whose operands are in range. -/
def AsmLine.build (m : Mnemonic) (x y z : Nat) : Instr :=
  match m with
  | .enable => .enable
  | .disable => .disable
  | .discover => .discover
  | .setThresholds => .setThresholds (BitVec.ofNat 16 x) (BitVec.ofNat 16 y)
  | .getStats => .getStats (x == 1)
  | .getSlotCount => .getSlotCount
  | .getSlotHandle => .getSlotHandle (BitVec.ofNat 8 x)
  | .setCtrlBlock => .setCtrlBlock (x == 1)
  | .getChannelState => .getChannelState
  | .setActValue => .setActValue (BitVec.ofNat 8 x) (BitVec.ofNat 2 y) (BitVec.ofNat 8 z)
  | .setActMode => .setActMode (BitVec.ofNat 8 x) (BitVec.ofNat 2 y) (BitVec.ofNat 3 z)
  | .setSlotEnable => .setSlotEnable (BitVec.ofNat 8 x) (y == 1)
  | .setInvServerCrc => .setInvServerCrc (BitVec.ofNat 8 x) (y == 1)
  | .setInvClientCrc => .setInvClientCrc (BitVec.ofNat 8 x) (y == 1)
  | .readSensor => .readSensor (BitVec.ofNat 8 x)
  | .readStatus => .readStatus (BitVec.ofNat 8 x)
  | .getSlotStats => .getSlotStats (BitVec.ofNat 8 x) (y == 1)
  | .readTxFrame => .readTxFrame (BitVec.ofNat 8 x)
  | .readRxFrame => .readRxFrame (BitVec.ofNat 8 x)

/-- Assembly of one line; `none` is the assembly error of R96. -/
def AsmLine.assemble (l : AsmLine) : Option Instr :=
  if l.wellFormed then some (AsmLine.build l.mnemonic (l.operands.getD 0 0) (l.operands.getD 1 0) (l.operands.getD 2 0))
  else none

/-- The line an assembler would write for a command. -/
def Instr.toAsm : Instr → AsmLine
  | .enable => ⟨.enable, []⟩
  | .disable => ⟨.disable, []⟩
  | .discover => ⟨.discover, []⟩
  | .setThresholds h l => ⟨.setThresholds, [h.toNat, l.toNat]⟩
  | .getStats r => ⟨.getStats, [r.toNat]⟩
  | .getSlotCount => ⟨.getSlotCount, []⟩
  | .getSlotHandle a => ⟨.getSlotHandle, [a.toNat]⟩
  | .setCtrlBlock v => ⟨.setCtrlBlock, [v.toNat]⟩
  | .getChannelState => ⟨.getChannelState, []⟩
  | .setActValue a i v => ⟨.setActValue, [a.toNat, i.toNat, v.toNat]⟩
  | .setActMode a i m => ⟨.setActMode, [a.toNat, i.toNat, m.toNat]⟩
  | .setSlotEnable a v => ⟨.setSlotEnable, [a.toNat, v.toNat]⟩
  | .setInvServerCrc a v => ⟨.setInvServerCrc, [a.toNat, v.toNat]⟩
  | .setInvClientCrc a v => ⟨.setInvClientCrc, [a.toNat, v.toNat]⟩
  | .readSensor a => ⟨.readSensor, [a.toNat]⟩
  | .readStatus a => ⟨.readStatus, [a.toNat]⟩
  | .getSlotStats a r => ⟨.getSlotStats, [a.toNat, r.toNat]⟩
  | .readTxFrame a => ⟨.readTxFrame, [a.toNat]⟩
  | .readRxFrame a => ⟨.readRxFrame, [a.toNat]⟩

/-- A well-formed command: the line an assembler writes for it has every operand in range. Since `Instr` holds operands
at their widths, every command is well-formed (Laws/PerInstr.lean, one lemma per constructor). -/
def Instr.WellFormed (i : Instr) : Prop := i.toAsm.wellFormed = true

end Sys2Proof
end

