-- ==== Sys2Proof/Decode.lean ====
section
/-! DEFINITION. The decoder of R91, total on every pair of words, and the encoder from the same encoding tables (R87 to
R90). -/

namespace Sys2Proof

/-- A row of the opcode map: a word selects the row where `word & mask = pattern` (R90). -/
structure OpRow where
  mnemonic : Mnemonic
  pattern : Word
  mask : Word
deriving DecidableEq, Repr

/-- The opcode map of R90, in its order. -/
def opcodeMap : List OpRow :=
  [⟨.enable, 0x01000000, 0xFFFFFFFF⟩,
   ⟨.disable, 0x02000000, 0xFFFFFFFF⟩,
   ⟨.discover, 0x03000000, 0xFFFFFFFF⟩,
   ⟨.setThresholds, 0x04000000, 0xFFFFFFFF⟩,
   ⟨.getStats, 0x05000000, 0xFFFFFFFE⟩,
   ⟨.getSlotCount, 0x06000000, 0xFFFFFFFF⟩,
   ⟨.getSlotHandle, 0x07000000, 0xFF00FFFF⟩,
   ⟨.setCtrlBlock, 0x08000000, 0xFFFFFFFE⟩,
   ⟨.getChannelState, 0x09000000, 0xFFFFFFFF⟩] ++
  [⟨.setActValue, 0x10000000, 0xFF00FC00⟩,
   ⟨.setActMode, 0x11000000, 0xFF00FCF8⟩,
   ⟨.setSlotEnable, 0x12000000, 0xFF00FFFE⟩,
   ⟨.setInvServerCrc, 0x13000000, 0xFF00FFFE⟩,
   ⟨.setInvClientCrc, 0x14000000, 0xFF00FFFE⟩] ++
  [⟨.readSensor, 0x20000000, 0xFF00FFFF⟩,
   ⟨.readStatus, 0x21000000, 0xFF00FFFF⟩,
   ⟨.getSlotStats, 0x22000000, 0xFF00FFFE⟩,
   ⟨.readTxFrame, 0x23000000, 0xFF00FFFF⟩,
   ⟨.readRxFrame, 0x24000000, 0xFF00FFFF⟩]

/-- `op`, bits 31:24 of a command word (R87). -/
def fieldOp (w : Word) : Byte := w.extractLsb' 24 8

/-- `a`, bits 23:16 (R87). -/
def fieldA (w : Word) : Byte := w.extractLsb' 16 8

/-- `i[1:0]`, bits 9:8 (R89). -/
def fieldI (w : Word) : BitVec 2 := w.extractLsb' 8 2

/-- `v`, bits 7:0 (R87). -/
def fieldV (w : Word) : Byte := w.extractLsb' 0 8

/-- `v[2:0]` (R89). -/
def fieldMode (w : Word) : BitVec 3 := w.extractLsb' 0 3

/-- `v[0]` (R89). -/
def fieldV0 (w : Word) : Bool := w.getLsbD 0

/-- Operand assembly of R89 for a word that selects the row of `m`. -/
def assembleOperands (m : Mnemonic) (w dw : Word) : Instr :=
  match m with
  | .enable => .enable
  | .disable => .disable
  | .discover => .discover
  | .setThresholds => .setThresholds (dw.extractLsb' 16 16) (dw.extractLsb' 0 16)
  | .getStats => .getStats (fieldV0 w)
  | .getSlotCount => .getSlotCount
  | .getSlotHandle => .getSlotHandle (fieldA w)
  | .setCtrlBlock => .setCtrlBlock (fieldV0 w)
  | .getChannelState => .getChannelState
  | .setActValue => .setActValue (fieldA w) (fieldI w) (fieldV w)
  | .setActMode => .setActMode (fieldA w) (fieldI w) (fieldMode w)
  | .setSlotEnable => .setSlotEnable (fieldA w) (fieldV0 w)
  | .setInvServerCrc => .setInvServerCrc (fieldA w) (fieldV0 w)
  | .setInvClientCrc => .setInvClientCrc (fieldA w) (fieldV0 w)
  | .readSensor => .readSensor (fieldA w)
  | .readStatus => .readStatus (fieldA w)
  | .getSlotStats => .getSlotStats (fieldA w) (fieldV0 w)
  | .readTxFrame => .readTxFrame (fieldA w)
  | .readRxFrame => .readRxFrame (fieldA w)

/-- Why a word is an illegal command: the two classes of R92. Both answer `ILLEGAL_COMMAND`. -/
inductive DecodeError where
  | undefinedOpcode (op : Byte)
  | reservedField (m : Mnemonic)
deriving DecidableEq, Repr

/-- The row a word selects (R91). -/
def selectRow (w : Word) : Option OpRow := opcodeMap.find? fun r => w &&& r.mask == r.pattern

/-- The class of an illegal word (R92). -/
def illegalReason (w : Word) : DecodeError :=
  match opcodeMap.find? fun r => fieldOp r.pattern == fieldOp w with
  | some r => .reservedField r.mnemonic
  | none => .undefinedOpcode (fieldOp w)

/-- The decode procedure of R91 on a command word and the data word that follows it, which only SET_THRESHOLDS
reads. -/
def decode (w dw : Word) : Except DecodeError Instr :=
  match selectRow w with
  | some r => .ok (assembleOperands r.mnemonic w dw)
  | none => .error (illegalReason w)

/-- A command word from its four fields (R87). -/
def commandWord (op a i v : Byte) : Word := op ++ a ++ i ++ v

/-- A Boolean operand as the field `v` (R89). -/
def flagByte (b : Bool) : Byte := BitVec.ofNat 8 b.toNat

/-- The command word of a command, every reserved field 0 (R88, R96). -/
def encodeWord : Instr → Word
  | .enable => commandWord 0x01 0 0 0
  | .disable => commandWord 0x02 0 0 0
  | .discover => commandWord 0x03 0 0 0
  | .setThresholds _ _ => commandWord 0x04 0 0 0
  | .getStats r => commandWord 0x05 0 0 (flagByte r)
  | .getSlotCount => commandWord 0x06 0 0 0
  | .getSlotHandle a => commandWord 0x07 a 0 0
  | .setCtrlBlock v => commandWord 0x08 0 0 (flagByte v)
  | .getChannelState => commandWord 0x09 0 0 0
  | .setActValue a i v => commandWord 0x10 a (i.setWidth 8) v
  | .setActMode a i m => commandWord 0x11 a (i.setWidth 8) (m.setWidth 8)
  | .setSlotEnable a v => commandWord 0x12 a 0 (flagByte v)
  | .setInvServerCrc a v => commandWord 0x13 a 0 (flagByte v)
  | .setInvClientCrc a v => commandWord 0x14 a 0 (flagByte v)
  | .readSensor a => commandWord 0x20 a 0 0
  | .readStatus a => commandWord 0x21 a 0 0
  | .getSlotStats a r => commandWord 0x22 a 0 (flagByte r)
  | .readTxFrame a => commandWord 0x23 a 0 0
  | .readRxFrame a => commandWord 0x24 a 0 0

/-- The data word of a command, for the one command that has one (R87, R96). -/
def encodeData : Instr → Option Word
  | .setThresholds high low => some (high ++ low)
  | _ => none

/-- The words of a command (R96). -/
def encode (i : Instr) : List Word := encodeWord i :: (encodeData i).toList

/-- The first `nbits` bits of `w`, every later bit 0. -/
def tableBits (nbits w : Nat) : Nat := w % 2 ^ nbits

/-- The command word and the data word of an instruction given as one number whose bit 0 is the least significant bit
of the first word. Words are whole values and no byte order arises (R65, D44; log 11). -/
def tableWords (nbits w : Nat) : Word × Word :=
  (BitVec.ofNat 32 (tableBits nbits w), BitVec.ofNat 32 (tableBits nbits w / 2 ^ 32))

/-- The command the decoder reads from such a number. -/
def decodeTableWord (nbits w : Nat) : Option Instr :=
  match decode (tableWords nbits w).1 (tableWords nbits w).2 with
  | .ok i => some i
  | .error _ => none

end Sys2Proof
end

