-- ==== Sys2Proof/Machine/State.lean ====
section
/-! DEFINITION. The state of the block as plain data (R20): the channel registers (R22), the position records (R24 to
R29), the two frame buffers (R60), the sequencing state of the scan controller (R31), the queues (R32), and what the
model itself carries (the configuration, the time, the schedule and the responses). -/

namespace Sys2Proof.Machine

/-- Four values of one kind, indexed by actuator 0 … 3 (R24). -/
structure Quad (α : Type) where
  v0 : α
  v1 : α
  v2 : α
  v3 : α
deriving DecidableEq, Repr

/-- The eight channel performance-counter categories, in the source's order (R12). -/
inductive Cat where
  | txund | rxovr | scantv | rxsize | rxsym | wd | rxcrc | rcrc
deriving DecidableEq, Repr

/-- The five per-slot status categories, in the source's order (R12). -/
inductive SlotCat where
  | sym | size | crc | rcrc | wd
deriving DecidableEq, Repr

/-- Eight 32-bit counters, one per channel category (R22). -/
structure Counters where
  txund : Word
  rxovr : Word
  scantv : Word
  rxsize : Word
  rxsym : Word
  wd : Word
  rxcrc : Word
  rcrc : Word
deriving DecidableEq, Repr

/-- Five 32-bit counters, one per status category (R29). -/
structure SlotCounters where
  sym : Word
  size : Word
  crc : Word
  rcrc : Word
  wd : Word
deriving DecidableEq, Repr

/-- The 8 bytes of a frame (R80). -/
structure Frame where
  b0 : Byte
  b1 : Byte
  b2 : Byte
  b3 : Byte
  b4 : Byte
  b5 : Byte
  b6 : Byte
  b7 : Byte
deriving DecidableEq, Repr

/-- The field record of R139; the RX mirror `RXM[p]` of R26 is one. -/
structure Fields where
  sensor : Byte
  act : Quad Byte
  mode : Quad (BitVec 3)
  enable : Bool
  invertClientCrc : Bool
  startMark : Bool
  watchdogError : Bool
  remoteCrcError : Bool
  crc : BitVec 4
deriving DecidableEq, Repr

/-- The TX register set of R24. -/
structure TxRegs where
  actVal : Quad Byte
  actMode : Quad (BitVec 3)
  enable : Bool
  invSrv : Bool
  invCli : Bool
  startMark : Bool
  txDirty : Bool
deriving DecidableEq, Repr

/-- The states of a CRC self-test (R28); value 3 of the two-bit field is never written, and has no constructor. -/
inductive SelfTest where
  | inactive | active | deactivating
deriving DecidableEq, Repr

/-- A position record (R24, R26 to R29). The frames of the position stand in the buffers. -/
structure Position where
  tx : TxRegs
  rxm : Fields
  /-- `S[p]` of R27. -/
  status : BitVec 5
  /-- `D[p]` of R27. -/
  dirty : BitVec 5
  srvState : SelfTest
  srvCount : Byte
  cliState : SelfTest
  cliCountP : Byte
  sctr : SlotCounters
deriving DecidableEq, Repr

/-- The channel registers of R22. -/
structure Channel where
  admin : Bool
  /-- bit 0 `DIS`, bit 1 `ERRBLK`, bit 2 `CBL` (R23). -/
  opstate : BitVec 3
  thHigh : BitVec 16
  thLow : BitVec 16
  nsats : Byte
  scancount : BitVec 9
  discovering : Bool
  wstart : Nat
  nextstart : Nat
  cliCount : Byte
  ctr : Counters
  sec : Counters
deriving DecidableEq, Repr

/-- The phases of SC (R31). -/
inductive Phase where
  | stopped | wait | build | tx | rx | classify | hyst | sched
  | dStart | dSettle1 | dEval | dSettle2 | dFinish
deriving DecidableEq, Repr

/-- `DSTEP` of R31. -/
inductive DStep where
  | none | probe | clean
deriving DecidableEq, Repr

/-- The field groups the build reads, each in one atomic step (R201). -/
inductive Group where
  | values | modes | flags
deriving DecidableEq, Repr

/-- `SNAP[p]` of R31: the TX field values the build read. -/
structure Snap where
  actVal : Quad Byte
  actMode : Quad (BitVec 3)
  enable : Bool
  invSrv : Bool
  invCli : Bool
  startMark : Bool
deriving DecidableEq, Repr

/-- `CYCERR` of R31. -/
inductive CycErr where
  | none | sym | size
deriving DecidableEq, Repr

/-- The sequencing state of SC (R31). `pending` is a set of reads: a list with no repeats (log 12), in the order the build made
it. -/
structure Controller where
  phase : Phase
  dstep : DStep
  pending : List (Nat × Group)
  snap : List Snap
  capture : List Pulse
  cycErr : CycErr
  settleUntil : Nat
  discReq : Option Nat
deriving DecidableEq, Repr

/-- The notifications of R32 and R346. -/
inductive Event where
  | statusUpdate (p : Nat) (s : BitVec 5)
  | senseUpdate (p : Nat) (b : Byte)
deriving DecidableEq, Repr

/-- The result codes of R94, numbered in `ResultCode.number`. -/
inductive ResultCode where
  | ok | illegalCommand | wrongState | noSuchSlot | excessiveDevices | generalLinkError
deriving DecidableEq, Repr

/-- A response: the host it goes to, the code and the words (R94). -/
structure Response where
  host : Nat
  code : ResultCode
  words : List Word
deriving DecidableEq, Repr

/-- A frame buffer of R60: (address, byte) pairs, the byte `j` of the frame of position `p` at address `8p + j`. An
address that is not listed reads 0x00, the reset content the spec gives (R25, R26). -/
abbrev Memory := List Host.Cell

/-- Why the machine stops. The block has no run-time fault (R360; log 8): each of these is raised only in states that no run
from reset reaches, where an access would leave the arrays the spec gives. -/
inductive Fault where
  /-- An access to a position record that does not exist (R20: positions are 0 … CAP − 1). Raised by slot commands, SC's
  build, transmit and classify steps, and D_EVAL. Safe: no state with `Inv` raises it. -/
  | noSuchPosition (p : Nat)
  /-- An access to a frame outside the buffers (R60: 8·CAP bytes). Raised by READ_TX_FRAME and READ_RX_FRAME. Safe: no
  state with `Inv` raises it. -/
  | noSuchFrame (p : Nat)
  /-- A discovery cycle ended with `DSTEP = NONE`, for which R215 names no continuation. Raised by CLASSIFY. Safe: no
  state with `Inv` raises it. -/
  | discoveryStepMissing
deriving DecidableEq, Repr

/-- Why a step is refused. -/
inductive Refusal where
  /-- An instruction without a meaning. No arm of `exec` raises it in this model. Safe. -/
  | notModelled (mnemonic : String)
  /-- A configuration that breaks R8, refused at launch and so at every step (R8, R360). Raised by `step`. Safe. -/
  | badConfiguration
deriving DecidableEq, Repr

/-- The whole state. Fields from `cfg` on that R20 does not name are the model's own (logs 1, 2, 4, 5 and 6). -/
structure State where
  /-- The configuration, which no step writes (R7, R35; log 1). -/
  cfg : Config
  /-- The timestamp of the last step (R6; log 4). -/
  now : Nat
  chan : Channel
  positions : List Position
  txBuf : Memory
  rxBuf : Memory
  sc : Controller
  /-- `RXFIFO`, oldest first (R32). -/
  rxFifo : List (List Pulse)
  /-- `TXLOG`, oldest first (R32). -/
  txLog : List (List Pulse)
  /-- `EVQ`, oldest first (R32). -/
  evq : List Event
  /-- The responses given so far, oldest first (R94; log 5). -/
  responses : List Response
  /-- The host agent whose command is executed (R280; log 5). -/
  host : Nat
  /-- The schedule: what the agents do next (R6, R35; log 2). -/
  inputs : List Input
  /-- How many entries the free schedule has supplied (log 2). -/
  draws : Nat
deriving DecidableEq, Repr

def Quad.const {α : Type} (x : α) : Quad α := ⟨x, x, x, x⟩

def Counters.zero : Counters := ⟨0, 0, 0, 0, 0, 0, 0, 0⟩

def SlotCounters.zero : SlotCounters := ⟨0, 0, 0, 0, 0⟩

def Fields.zero : Fields := ⟨0, .const 0, .const 0, false, false, false, false, false, 0⟩

def TxRegs.reset : TxRegs := ⟨.const 0, .const 0, false, false, false, false, false⟩

/-- The reset values of a position record (R37, R38). -/
def Position.reset : Position := ⟨.reset, .zero, 0, 0, .inactive, 0, .inactive, 0, .zero⟩

def Snap.reset : Snap := ⟨.const 0, .const 0, false, false, false, false⟩

/-- The reset column of R22 and R23. -/
def Channel.reset : Channel where
  admin := false
  opstate := 0b001
  thHigh := 0
  thLow := 0
  nsats := 0
  scancount := 0
  discovering := false
  wstart := 0
  nextstart := 0
  cliCount := 0
  ctr := .zero
  sec := .zero

/-- The reset column of R31, for a configuration with `n` positions. -/
def Controller.reset (n : Nat) : Controller where
  phase := .stopped
  dstep := .none
  pending := []
  snap := List.replicate n .reset
  capture := []
  cycErr := .none
  settleUntil := 0
  discReq := none

/-- The block right after it is created with the configuration `cfg` (R37, R370). -/
def State.resetWith (cfg : Config) : State where
  cfg := cfg
  now := 0
  chan := .reset
  positions := List.replicate cfg.cap .reset
  txBuf := []
  rxBuf := []
  sc := .reset cfg.cap
  rxFifo := []
  txLog := []
  evq := []
  responses := []
  host := 0
  inputs := []
  draws := 0

/-- The state after reset, for the configuration the log names (log 1). -/
def State.reset : State := State.resetWith Config.vectors

end Sys2Proof.Machine
end

