-- ==== Sys2Proof/Machine/Ops.lean ====
section
/-! DEFINITION. The named operations over the frame buffers, the position array, the counters and the queues, and the
one way an error is taken: the block has no trap (R340, R352), so an error is an ordinary write of state. -/

namespace Sys2Proof.Machine

/-- The three outcomes, at this machine's types. -/
abbrev Result := Host.Outcome State Fault Refusal

/-! ### Frame buffers (R60 to R66) -/

/-- The canonical form: addresses strictly rising, and no entry equal to what an unlisted address reads as. -/
abbrev Memory.wf (m : Memory) : Prop := m.Pairwise (fun x y => x.1 < y.1) ∧ ∀ c ∈ m, c.2 ≠ 0

/-- What an unlisted address reads as: the reset content 0x00 (R25, R26). -/
def Memory.unlisted : Byte := 0

/-- One byte: `MemRead` of R11. -/
def Memory.read : Memory → Nat → Byte
  | [], _ => Memory.unlisted
  | c :: m, a => if c.1 = a then c.2 else Memory.read m a

/-- `MemWrite` of R11, keeping the canonical form. -/
def Memory.write : Memory → Nat → Byte → Memory
  | [], a, v => if v = Memory.unlisted then [] else [(a, v)]
  | c :: m, a, v =>
    if a < c.1 then (if v = Memory.unlisted then c :: m else (a, v) :: c :: m)
    else if a = c.1 then (if v = Memory.unlisted then m else (a, v) :: m)
    else c :: Memory.write m a v

/-- Forget every byte at `limit` and above: they read as after reset. -/
def Memory.keepBelow (m : Memory) (limit : Nat) : Memory := m.filter fun c => c.1 < limit

/-- The frame of position `p`: bytes `8p` … `8p + 7` (R60). -/
def Memory.frame (m : Memory) (p : Nat) : Frame :=
  ⟨m.read (8 * p), m.read (8 * p + 1), m.read (8 * p + 2), m.read (8 * p + 3),
   m.read (8 * p + 4), m.read (8 * p + 5), m.read (8 * p + 6), m.read (8 * p + 7)⟩

def Memory.writeFrame (m : Memory) (p : Nat) (f : Frame) : Memory :=
  (((((((m.write (8 * p) f.b0).write (8 * p + 1) f.b1).write (8 * p + 2) f.b2).write (8 * p + 3) f.b3).write
    (8 * p + 4) f.b4).write (8 * p + 5) f.b5).write (8 * p + 6) f.b6).write (8 * p + 7) f.b7

/-- The bytes of a frame, byte 0 first (R63). -/
def Frame.bytes (f : Frame) : List Byte := [f.b0, f.b1, f.b2, f.b3, f.b4, f.b5, f.b6, f.b7]

/-- Frame `i` of a decoded capture: bytes `8i` … `8i + 7` (R64). -/
def frameAt (bytes : List Byte) (i : Nat) : Frame :=
  ⟨bytes.getD (8 * i) 0, bytes.getD (8 * i + 1) 0, bytes.getD (8 * i + 2) 0, bytes.getD (8 * i + 3) 0,
   bytes.getD (8 * i + 4) 0, bytes.getD (8 * i + 5) 0, bytes.getD (8 * i + 6) 0, bytes.getD (8 * i + 7) 0⟩

/-- A host's read of a whole frame; no frame exists at `CAP` and above (R60). -/
def hostFrame (cfg : Config) (m : Memory) (p : Nat) : Option Frame := if p < cfg.cap then some (m.frame p) else none

/-! ### Quads, counters -/

def Quad.get {α : Type} (q : Quad α) (k : BitVec 2) : α :=
  if k = 0 then q.v0 else if k = 1 then q.v1 else if k = 2 then q.v2 else q.v3

def Quad.set {α : Type} (q : Quad α) (k : BitVec 2) (x : α) : Quad α :=
  if k = 0 then { q with v0 := x } else if k = 1 then { q with v1 := x }
  else if k = 2 then { q with v2 := x } else { q with v3 := x }

def Counters.get (t : Counters) : Cat → Word
  | .txund => t.txund
  | .rxovr => t.rxovr
  | .scantv => t.scantv
  | .rxsize => t.rxsize
  | .rxsym => t.rxsym
  | .wd => t.wd
  | .rxcrc => t.rxcrc
  | .rcrc => t.rcrc

/-- `t[c] <- inc32(t[c])`. -/
def Counters.bump (t : Counters) : Cat → Counters
  | .txund => { t with txund := inc32 t.txund }
  | .rxovr => { t with rxovr := inc32 t.rxovr }
  | .scantv => { t with scantv := inc32 t.scantv }
  | .rxsize => { t with rxsize := inc32 t.rxsize }
  | .rxsym => { t with rxsym := inc32 t.rxsym }
  | .wd => { t with wd := inc32 t.wd }
  | .rxcrc => { t with rxcrc := inc32 t.rxcrc }
  | .rcrc => { t with rcrc := inc32 t.rcrc }

/-- The words of a counter set in the order of R95. -/
def Counters.words (t : Counters) : List Word :=
  [t.txund, t.rxovr, t.scantv, t.rxsize, t.rxsym, t.wd, t.rxcrc, t.rcrc]

def SlotCounters.get (t : SlotCounters) : SlotCat → Word
  | .sym => t.sym
  | .size => t.size
  | .crc => t.crc
  | .rcrc => t.rcrc
  | .wd => t.wd

def SlotCounters.words (t : SlotCounters) : List Word := [t.sym, t.size, t.crc, t.rcrc, t.wd]

/-- Count the categories that `new` holds, each once (R213). -/
def SlotCounters.bumpAll (t : SlotCounters) (new : SlotCat → Bool) : SlotCounters where
  sym := if new .sym then inc32 t.sym else t.sym
  size := if new .size then inc32 t.size else t.size
  crc := if new .crc then inc32 t.crc else t.crc
  rcrc := if new .rcrc then inc32 t.rcrc else t.rcrc
  wd := if new .wd then inc32 t.wd else t.wd

/-! ### State -/

/-- The record of position `p`, or `none` where no such position exists. -/
def State.pos? (s : State) (p : Nat) : Option Position := s.positions[p]?

def State.setPos (s : State) (p : Nat) (P : Position) : State := { s with positions := s.positions.set p P }

/-- The frame of position `p` in `TXBUF`. -/
def State.txFrame (s : State) (p : Nat) : Frame := s.txBuf.frame p

/-- The frame of position `p` in `RXBUF`. -/
def State.rxFrame (s : State) (p : Nat) : Frame := s.rxBuf.frame p

/-- `return code, words` of R11: the response of the command the host agent `s.host` issued. -/
def State.respond (s : State) (code : ResultCode) (words : List Word) : State :=
  { s with responses := s.responses ++ [⟨s.host, code, words⟩] }

/-- The later response to the host whose DISCOVER is outstanding (R185, R186). -/
def State.respondDiscover (s : State) (code : ResultCode) : State :=
  { s with
    responses := s.responses ++ (s.sc.discReq.map fun h => Response.mk h code []).toList
    sc := { s.sc with discReq := none } }

/-- TAKING AN ERROR in a command. No error transfers control (R340): the command answers the code with no words, and the
block's state is unchanged (R285, R352). -/
def State.reject (s : State) (code : ResultCode) : State := s.respond code []

/-- TAKING AN ERROR in SC: one lifetime and one this-second counter of the category (R210, R213, R216). -/
def State.count (s : State) (c : Cat) : State :=
  { s with chan := { s.chan with ctr := s.chan.ctr.bump c, sec := s.chan.sec.bump c } }

/-- `emit Ev(...)` of R11, for a step that may make no event. -/
def State.emit (s : State) (e : Option Event) : State := { s with evq := s.evq ++ e.toList }

def State.setPhase (s : State) (p : Phase) : State := { s with sc := { s.sc with phase := p } }

/-- `CAP` of R7. -/
def State.cap (s : State) : Nat := s.cfg.cap

/-- `SCANCOUNT` as a number of positions. -/
def State.scanned (s : State) : Nat := s.chan.scancount.toNat

/-- Do `f` for every `p` in `0 … n − 1`, in that order. -/
def forPositions (n : Nat) (f : Nat → State → State) (s : State) : State := (List.range n).foldl (fun t p => f p t) s

/-- Every scanned position has its record, its snapshot and its frames. -/
def State.scanFits (s : State) : Bool :=
  s.scanned ≤ s.positions.length && s.scanned ≤ s.sc.snap.length && s.scanned ≤ s.cap

/-- A step over the scanned positions; the first position that does not exist stops it. -/
def overScanned (s : State) (t : State) : Result :=
  if s.scanFits then .next t else .fault (.noSuchPosition (min s.positions.length (min s.sc.snap.length s.cap)))

end Sys2Proof.Machine
end

