-- ==== Sys2Proof/Machine/Flags.lean ====
section
/-! DEFINITION. The flags of R33: the op-state bits (R23), the status and dirty bits of a position (R27) and the derived
control-block of a slot (R30). -/

namespace Sys2Proof.Machine

/-- Write bit `i` of a register. -/
def setBit {w : Nat} (x : BitVec w) (i : Nat) (b : Bool) : BitVec w :=
  if b then x ||| (1#w <<< i) else x &&& ~~~(1#w <<< i)

/-- `OPSTATE.DIS` (R23). -/
def Channel.dis (c : Channel) : Bool := c.opstate.getLsbD 0

/-- `OPSTATE.ERRBLK` (R23). -/
def Channel.errBlk (c : Channel) : Bool := c.opstate.getLsbD 1

/-- `OPSTATE.CBL` (R23). -/
def Channel.cbl (c : Channel) : Bool := c.opstate.getLsbD 2

def Channel.setDis (c : Channel) (b : Bool) : Channel := { c with opstate := setBit c.opstate 0 b }

def Channel.setErrBlk (c : Channel) (b : Bool) : Channel := { c with opstate := setBit c.opstate 1 b }

def Channel.setCbl (c : Channel) (b : Bool) : Channel := { c with opstate := setBit c.opstate 2 b }

/-- `SLOT_CBL(p) = (OPSTATE != 0)`, the same for every slot and not stored (R30). -/
def Channel.slotCbl (c : Channel) : Bool := c.opstate != 0

/-- The bit positions of `S[p]` and `D[p]` (R27). -/
def SlotCat.bit : SlotCat → Nat
  | .sym => 0
  | .size => 1
  | .crc => 2
  | .rcrc => 3
  | .wd => 4

/-- Bit `c` of `S[p]` or `D[p]`. -/
def hasCat (v : BitVec 5) (c : SlotCat) : Bool := v.getLsbD c.bit

/-- The bitmap with exactly the bits of the categories `f` holds. -/
def ofCats (f : SlotCat → Bool) : BitVec 5 :=
  BitVec.ofBool (f .wd) ++ BitVec.ofBool (f .rcrc) ++ BitVec.ofBool (f .crc) ++ BitVec.ofBool (f .size) ++
    BitVec.ofBool (f .sym)

/-- The channel category a status category feeds, where R213 counts it per position. -/
def SlotCat.chan : SlotCat → Option Cat
  | .crc => some .rxcrc
  | .rcrc => some .rcrc
  | .wd => some .wd
  | _ => none

/-- The two-bit encoding of a self-test state (R28). -/
def SelfTest.code : SelfTest → BitVec 2
  | .inactive => 0
  | .active => 1
  | .deactivating => 2

/-- The numbers of the result codes (R94). -/
def ResultCode.number : ResultCode → Nat
  | .ok => 0
  | .illegalCommand => 1
  | .wrongState => 2
  | .noSuchSlot => 3
  | .excessiveDevices => 4
  | .generalLinkError => 5

end Sys2Proof.Machine
end

