-- ==== Sys2Proof/Machine/Codec.lean ====
section
/-! DEFINITION. The wire frame codec, R139 to R141 (40_frame_codec.md), over the layout of R80. -/

namespace Sys2Proof.Machine

/-- `pack(f)` of R140; every reserved bit is 0 (R83). -/
def pack (f : Fields) : Frame where
  b0 := f.sensor
  b1 := f.act.v3
  b2 := f.act.v2
  b3 := f.act.v1
  b4 := f.act.v0
  b5 := f.mode.v3 ++ f.mode.v2 ++ f.mode.v1.extractLsb' 1 2
  b6 := f.mode.v1.extractLsb' 0 1 ++ f.mode.v0 ++ 0#1 ++ BitVec.ofBool f.enable ++ BitVec.ofBool f.invertClientCrc ++
    BitVec.ofBool f.startMark
  b7 := 0#2 ++ BitVec.ofBool f.watchdogError ++ BitVec.ofBool f.remoteCrcError ++ f.crc

/-- The field record of a frame (R141); the reserved bits are ignored. -/
def unpackFields (b : Frame) : Fields where
  sensor := b.b0
  act := ⟨b.b4, b.b3, b.b2, b.b1⟩
  mode :=
    ⟨b.b6.extractLsb' 4 3, b.b5.extractLsb' 0 2 ++ b.b6.extractLsb' 7 1, b.b5.extractLsb' 2 3, b.b5.extractLsb' 5 3⟩
  enable := b.b6.getLsbD 2
  invertClientCrc := b.b6.getLsbD 1
  startMark := b.b6.getLsbD 0
  watchdogError := b.b7.getLsbD 5
  remoteCrcError := b.b7.getLsbD 4
  crc := b.b7.extractLsb' 0 4

/-- `unpack(b, prev)` of R141: the fields, and whether the sensor byte changed. -/
def unpack (b : Frame) (prev : Byte) : Fields × Bool := (unpackFields b, b.b0 != prev)

end Sys2Proof.Machine
end

