-- ==== Sys2Proof/Machine/Crc.lean ====
section
/-! DEFINITION. The CRC-4 generator with invert mode, R150 to R152 (41_crc.md). -/

namespace Sys2Proof.Machine

/-- The bits of a byte in send order, bit 7 first (R62). -/
def bitsMsb (b : Byte) : List Bool :=
  [b.getLsbD 7, b.getLsbD 6, b.getLsbD 5, b.getLsbD 4, b.getLsbD 3, b.getLsbD 2, b.getLsbD 1, b.getLsbD 0]

/-- One input bit through the 4-bit register, with its 5-bit scratch (R150). -/
def crcStep (r : BitVec 4) (d : Bool) : BitVec 4 :=
  let s : BitVec 5 := r.setWidth 5 <<< 1
  let s := if d then s ^^^ 0b10000 else s
  let s := if s.getLsbD 4 then (s ^^^ 0b00011) &&& 0b01111 else s
  s.setWidth 4

/-- The covered bits of a frame: bytes 0 … 6 in order, each bit 7 first (R82). -/
def Frame.crcBits (f : Frame) : List Bool :=
  bitsMsb f.b0 ++ bitsMsb f.b1 ++ bitsMsb f.b2 ++ bitsMsb f.b3 ++ bitsMsb f.b4 ++ bitsMsb f.b5 ++ bitsMsb f.b6

/-- `crc4(b)` of R150. -/
def crc4 (f : Frame) : BitVec 4 := f.crcBits.foldl crcStep Config.crcInit

/-- `crcStore(b, invalidate)` of R151: the checksum or its complement in the low nibble of byte 7. -/
def crcStore (f : Frame) (invalidate : Bool) : Frame :=
  let c := if invalidate then ~~~ crc4 f else crc4 f
  { f with b7 := (f.b7 &&& 0xF0) ||| c.setWidth 8 }

/-- `crcVerify(b)` of R152. -/
def crcVerify (f : Frame) : Bool := f.b7.extractLsb' 0 4 == crc4 f

end Sys2Proof.Machine
end

