-- ==== Sys2Proof/Machine/Phy.lean ====
section
/-! DEFINITION. The pulse-timing PHY, R160 to R169 (42_phy.md). -/

namespace Sys2Proof.Machine

/-- The pulse sent for one logical bit (R85). -/
def pulseOf (cfg : Config) (d : Bool) : Pulse :=
  if d then ⟨true, cfg.t1h, false, cfg.t1l⟩ else ⟨true, cfg.t0h, false, cfg.t0l⟩

/-- The bits of a byte sequence in send order (R62, R63). -/
def bitsOfBytes (bytes : List Byte) : List Bool := bytes.flatMap bitsMsb

/-- `phyEncode(bytes, requested)` of R161: the pulses, and whether fewer were produced than requested. -/
def phyEncode (cfg : Config) (bytes : List Byte) (requested : Nat) : List Pulse × Bool :=
  (((bitsOfBytes bytes).take requested).map (pulseOf cfg), (bitsOfBytes bytes).length < requested)

/-- The bit a pulse carries, or `none` for a symbol error: the duration windows with the "1" test first (R164), then
the period (R165). -/
def pulseBit (cfg : Config) (q : Pulse) : Option Bool :=
  let d : Option Bool :=
    if cfg.lhMin ≤ q.dur0 ∧ q.dur0 ≤ cfg.lhMax then some true
    else if cfg.shMin ≤ q.dur0 ∧ q.dur0 ≤ cfg.shMax then some false
    else none
  if cfg.spMin ≤ q.dur0 + q.dur1 ∧ q.dur0 + q.dur1 ≤ cfg.spMax then d else none

/-- The bits of a capture: a single bad pulse invalidates it all (R166). -/
def captureBits (cfg : Config) : List Pulse → Option (List Bool)
  | [] => some []
  | q :: qs =>
    match pulseBit cfg q, captureBits cfg qs with
    | some d, some ds => some (d :: ds)
    | _, _ => none

/-- The line level of the first pulse, where there is one (R163). -/
def firstLevelOk : List Pulse → Bool
  | [] => true
  | q :: _ => q.level0 == Config.expectedFirstLevel

/-- A byte from 8 bits, the first of them bit 7 (R167). -/
def byteOfBits (d7 d6 d5 d4 d3 d2 d1 d0 : Bool) : Byte :=
  BitVec.ofBool d7 ++ BitVec.ofBool d6 ++ BitVec.ofBool d5 ++ BitVec.ofBool d4 ++ BitVec.ofBool d3 ++ BitVec.ofBool d2 ++
    BitVec.ofBool d1 ++ BitVec.ofBool d0

/-- Bytes from groups of 8 bits; a trailing partial group is dropped (R166). -/
def bytesOfBits : List Bool → List Byte
  | d7 :: d6 :: d5 :: d4 :: d3 :: d2 :: d1 :: d0 :: ds => byteOfBits d7 d6 d5 d4 d3 d2 d1 d0 :: bytesOfBits ds
  | _ => []

/-- The two results of the decoder (R166). -/
inductive Decoded where
  | symErr
  | ok (bytes : List Byte) (size : Nat)
deriving DecidableEq, Repr

/-- `phyDecode(c, expectedBits)` of R166: every pulse is validated, the decoded size is `len(c)`, and the bytes come from
the first `min(len, expectedBits)` bits. -/
def phyDecode (cfg : Config) (c : List Pulse) (expectedBits : Nat) : Decoded :=
  if firstLevelOk c then
    match captureBits cfg c with
    | some bits => .ok (bytesOfBits (bits.take expectedBits)) c.length
    | none => .symErr
  else .symErr

end Sys2Proof.Machine
end

