-- ==== Sys2Proof/Machine/Scan.lean ====
section
/-! DEFINITION. The scan controller's steps from the start of a cycle to the receive, R200 to R209, and its scheduler,
R216 (44_scan_loop.md). -/

namespace Sys2Proof.Machine

/-! ### Cycle start (R200 to R202) -/

/-- Every read of a build over `n` positions (R201). -/
def pendingReads (n : Nat) : List (Nat × Group) :=
  (List.range n).flatMap fun p => [(p, .values), (p, .modes), (p, .flags)]

/-- `sharedClientTick()` of R202. -/
def clientTick (cfg : Config) (count : Byte) : Byte :=
  if cfg.clientCountdownShared ∧ count ≠ 0 then count - 1 else count

/-- `beginBuild()` of R201. -/
def beginBuild (s : State) : State :=
  { s with
    chan := { s.chan with cliCount := clientTick s.cfg s.chan.cliCount }
    sc := { s.sc with pending := pendingReads s.scanned, phase := .build } }

/-- The WAIT step (R200); not enabled before `NEXTSTART` while the channel is enabled. -/
def waitStep (s : State) : State :=
  if s.chan.admin then
    if s.chan.nextstart ≤ s.now then
      beginBuild { s with chan := { s.chan with nextstart := s.chan.nextstart + s.cfg.scanIntervalUs } }
    else s
  else s.setPhase .stopped

/-! ### Build (R203 to R206) -/

/-- `TAIL` as the 8-bit value a countdown is loaded with (R204; R8 keeps it at most 255). -/
def tailCount (cfg : Config) : Byte := BitVec.ofNat 8 cfg.selftestTail

/-- The server CRC self-test of R204: state and countdown. DEDUCED (log 7): the 8-bit countdown wraps, which only a
DEACTIVATING state with count 0 could show, and no run reaches one. -/
def serverTest (cfg : Config) (inv : Bool) (st : SelfTest) (count : Byte) : SelfTest × Byte :=
  if inv then (.active, 0)
  else match st with
    | .active => if cfg.selftestTail = 0 then (.inactive, count) else (.deactivating, tailCount cfg)
    | .deactivating => (if count - 1 = 0 then .inactive else .deactivating, count - 1)
    | .inactive => (.inactive, count)

/-- The client CRC self-test of R204: state, the shared countdown `CLI_COUNT`, and the position's own. -/
def clientTest (cfg : Config) (inv : Bool) (st : SelfTest) (shared own : Byte) : SelfTest × Byte × Byte :=
  if inv then (.active, shared, if cfg.clientCountdownShared then own else 0)
  else match st with
    | .active =>
      if cfg.selftestTail = 0 then (.inactive, shared, own)
      else if cfg.clientCountdownShared then (.deactivating, tailCount cfg, own)
      else (.deactivating, shared, tailCount cfg)
    | .deactivating =>
      if cfg.clientCountdownShared then (if shared = 0 then .inactive else .deactivating, shared, own)
      else (if own - 1 = 0 then .inactive else .deactivating, shared, own - 1)
    | .inactive => (.inactive, shared, own)

/-- The snapshot of position `p` after the read of one field group (R203). -/
def readGroup (p : Nat) (g : Group) (t : TxRegs) (n : Snap) : Snap :=
  match g with
  | .values => { n with actVal := t.actVal }
  | .modes => { n with actMode := t.actMode }
  | .flags => { n with startMark := p == 0, enable := t.enable, invSrv := t.invSrv, invCli := t.invCli }

/-- What the FLAGS read writes in the position's record: `START_MARK`, `TX_DIRTY` and the self-test state, run on the
flag values just read (R203, R204). -/
def flagsRead (cfg : Config) (p : Nat) (shared : Byte) (P : Position) : Position :=
  { P with
    tx := { P.tx with startMark := p == 0, txDirty := false }
    srvState := (serverTest cfg P.tx.invSrv P.srvState P.srvCount).1
    srvCount := (serverTest cfg P.tx.invSrv P.srvState P.srvCount).2
    cliState := (clientTest cfg P.tx.invCli P.cliState shared P.cliCountP).1
    cliCountP := (clientTest cfg P.tx.invCli P.cliState shared P.cliCountP).2.2 }

/-- The read of group `g` of position `p`, whose record is `P` and whose snapshot is `n` (R203). -/
def buildRead (p : Nat) (g : Group) (P : Position) (n : Snap) (s : State) : State :=
  let t := { s with
    sc := { s.sc with pending := s.sc.pending.erase (p, g), snap := s.sc.snap.set p (readGroup p g P.tx n) } }
  match g with
  | .flags =>
    { t.setPos p (flagsRead s.cfg p s.chan.cliCount P) with
      chan := { s.chan with cliCount := (clientTest s.cfg P.tx.invCli P.cliState s.chan.cliCount P.cliCountP).2.1 } }
  | _ => t

/-- The fields the block sends for a position (R205): sensor, feedback flags and CRC are 0 (D5). -/
def txFields (n : Snap) : Fields where
  sensor := 0
  act := n.actVal
  mode := n.actMode
  enable := n.enable
  invertClientCrc := n.invCli
  startMark := n.startMark
  watchdogError := false
  remoteCrcError := false
  crc := 0

/-- The frame the build makes from a snapshot (R205). -/
def builtFrame (n : Snap) : Frame := crcStore (pack (txFields n)) n.invSrv

/-- BUILD_DONE for one position (R205). -/
def buildFrame (p : Nat) (s : State) : State :=
  { s with txBuf := s.txBuf.writeFrame p (builtFrame (s.sc.snap.getD p .reset)) }

/-- The BUILD steps: one group read, picked among the pending ones, or the completion (R203, R205). -/
def buildStep (pick : Nat) (s : State) : Result :=
  match s.sc.pending[pick % s.sc.pending.length]? with
  | some (p, g) =>
    match s.pos? p, s.sc.snap[p]? with
    | some P, some n => .next (buildRead p g P n s)
    | _, _ => .fault (.noSuchPosition p)
  | none => overScanned s ((forPositions s.scanned buildFrame s).setPhase .tx)

/-! ### Transmit and receive (R207 to R209) -/

/-- The bytes of the frames of positions 0 … SCANCOUNT − 1, in that order (R64). -/
def txBytes (s : State) : List Byte := (List.range s.scanned).flatMap fun p => (s.txFrame p).bytes

/-- The TX step (R207). -/
def txStep (s : State) : Result :=
  let (train, und) := phyEncode s.cfg (txBytes s) (Config.frameBits * s.scanned)
  let t := { s with txLog := s.txLog ++ [train] }
  overScanned s ((if und then t.count .txund else t).setPhase .rx)

/-- The RX step (R209): the oldest capture, or the empty capture. -/
def rxStep (s : State) : State :=
  { s with
    rxFifo := s.rxFifo.tail
    sc := { s.sc with capture := s.rxFifo.headD [], phase := .classify } }

/-! ### Schedule (R216) -/

/-- The SCHED step (R216): a violation restarts the schedule from now. -/
def schedStep (s : State) : State :=
  (if s.chan.nextstart < s.now then
    ({ s with chan := { s.chan with nextstart := s.now } }).count .scantv
  else s).setPhase .wait

end Sys2Proof.Machine
end

