-- ==== Sys2Proof/Machine/Discovery.lean ====
section
/-! DEFINITION. The discovery procedure, R181 to R186 (43_discovery.md). -/

namespace Sys2Proof.Machine

/-- `resetPos(p)` for every position (R38): all records and both buffers at their reset values. -/
def resetPositions (s : State) : State :=
  { s with positions := List.replicate s.cap .reset, txBuf := [], rxBuf := [] }

/-- A position as D_START leaves it (R181 step 2). -/
def probePosition : Position :=
  { Position.reset with tx := { TxRegs.reset with invSrv := true, txDirty := true }, dirty := 0b11111 }

/-- D_START (R181): teardown, then the probe cycle over all `CAP` positions. -/
def dStartStep (s : State) : State :=
  beginBuild { s with
    positions := List.replicate s.cap probePosition
    txBuf := []
    rxBuf := []
    chan := { s.chan with nsats := 0, cliCount := 0, discovering := true, scancount := BitVec.ofNat 9 s.cap }
    sc := { s.sc with dstep := .probe } }

/-- `fail(code)` of R185. -/
def discoveryFail (code : ResultCode) (s : State) : State :=
  let t := resetPositions s
  ({ t with
    chan := { t.chan with nsats := 0, scancount := 0, discovering := false }
    sc := { t.sc with dstep := .none, phase := .stopped } }).respondDiscover code

/-- The settle delay after a discovery cycle without a cycle-level error (R182, R184). -/
def settle (p : Phase) (s : State) : State :=
  { s with sc := { s.sc with settleUntil := s.now + s.cfg.discoverySettleUs, phase := p } }

/-- What follows CLASSIFY in a discovery cycle (R182, R184, R215). -/
def afterDiscoveryCycle (s : State) : Result :=
  match s.sc.dstep with
  | .none => .fault .discoveryStepMissing
  | .probe => .next (if s.sc.cycErr = .none then settle .dSettle1 s else discoveryFail .generalLinkError s)
  | .clean => .next (if s.sc.cycErr = .none then settle .dSettle2 s else discoveryFail .generalLinkError s)

/-- D_SETTLE1 and D_SETTLE2, enabled once the settle delay is over (R182, R184). -/
def settleStep (after : Phase) (s : State) : State := if s.sc.settleUntil ≤ s.now then s.setPhase after else s

/-- The number of positions before the first one whose mirror has `remoteCrcError = 0` (R183, C2). -/
def satellitesFound (ps : List Position) : Nat := (ps.takeWhile fun P => P.rxm.remoteCrcError).length

/-- A position as D_EVAL leaves it for the cleanup cycle (R183). -/
def cleanPosition (P : Position) : Position := { P with tx := { P.tx with invSrv := false, txDirty := true } }

/-- D_EVAL (R183): the guard position first, then the count. -/
def dEvalStep (s : State) : Result :=
  match s.pos? s.cfg.maxDevices with
  | none => .fault (.noSuchPosition s.cfg.maxDevices)
  | some guard =>
    if guard.rxm.remoteCrcError then .next (discoveryFail .excessiveDevices s)
    else .next (beginBuild { s with
      positions := s.positions.map cleanPosition
      chan := { s.chan with nsats := BitVec.ofNat 8 (satellitesFound s.positions) }
      sc := { s.sc with dstep := .clean } })

/-- A position as D_FINISH leaves it: a live slot keeps everything but its dirty flags (R186). -/
def finishPosition (k p : Nat) (P : Position) : Position := if p < k then { P with dirty := 0 } else .reset

/-- D_FINISH (R186). -/
def dFinishStep (s : State) : State :=
  let k := s.chan.nsats.toNat
  ({ s with
    positions := s.positions.mapIdx (finishPosition k)
    txBuf := s.txBuf.keepBelow (8 * k)
    rxBuf := s.rxBuf.keepBelow (8 * k)
    chan := { s.chan with scancount := s.chan.nsats.setWidth 9, discovering := false }
    sc := { s.sc with dstep := .none, phase := .stopped } }).respondDiscover .ok

end Sys2Proof.Machine
end

