-- ==== Sys2Proof/Machine/Classify.lean ====
section
/-! DEFINITION. The CLASSIFY step, R210 to R215 (44_scan_loop.md), one atomic step (R67). Part 1 works on the capture;
parts 2 to 5 work on one position at a time, since nothing one position computes is read by another
(log 10). -/

namespace Sys2Proof.Machine

/-- Store the decoded frames of the scanned positions (R210). -/
def storeFrames (bytes : List Byte) (s : State) : State :=
  forPositions s.scanned (fun p t => { t with rxBuf := t.rxBuf.writeFrame p (frameAt bytes p) }) s

def setCycErr (e : CycErr) (s : State) : State := { s with sc := { s.sc with cycErr := e } }

/-- Part 1: decode and cycle-level errors (R210). -/
def classifyCapture (s : State) : State :=
  let expected := Config.frameBits * s.scanned
  match phyDecode s.cfg s.sc.capture expected with
  | .symErr => (setCycErr .sym { s with rxFifo := [] }).count .rxsym
  | .ok bytes n =>
    let t := if expected < n then s.count .rxovr else s
    if n = expected then storeFrames bytes (setCycErr .none t)
    else (setCycErr .size t).count .rxsize

/-- The values local to part 2 for one position: the record after unpack, `changed` and `crcErr` (R211). -/
structure Unpacked where
  pos : Position
  changed : Bool
  crcErr : Bool
deriving DecidableEq, Repr

/-- Part 2 (R211): the mirror commits before the CRC verdict; after a cycle-level error nothing is unpacked. -/
def unpackPosition (e : CycErr) (b : Frame) (P : Position) : Unpacked :=
  match e with
  | .none => ⟨{ P with rxm := (unpack b P.rxm.sensor).1 }, (unpack b P.rxm.sensor).2, !crcVerify b⟩
  | .sym => ⟨P, false, false⟩
  | .size => ⟨P, false, false⟩

/-- Part 3: whether a category is raised for a position (R212). -/
def raised (e : CycErr) (crcErr : Bool) (P : Position) (c : SlotCat) : Bool :=
  match e, c with
  | .sym, .sym => true
  | .size, .size => true
  | .none, .crc => crcErr && P.cliState == .inactive
  | .none, .rcrc => P.rxm.remoteCrcError && P.srvState == .inactive
  | .none, .wd => P.rxm.watchdogError
  | _, _ => false

/-- `NEW[p]`: raised while its dirty flag was clear (R213). -/
def newlyRaised (e : CycErr) (crcErr : Bool) (P : Position) (c : SlotCat) : Bool :=
  raised e crcErr P c && !hasCat P.dirty c

/-- Part 4 for the position's own record (R213): outside discovery a category that is not raised is rearmed. -/
def markPosition (discovering : Bool) (e : CycErr) (crcErr : Bool) (P : Position) : Position :=
  { P with
    status := ofCats (raised e crcErr P)
    dirty := ofCats fun c => raised e crcErr P c || (discovering && hasCat P.dirty c)
    sctr := P.sctr.bumpAll (newlyRaised e crcErr P) }

/-- Part 4 for the channel counters: CRC, RCRC and WD count per position; SYM and SIZE were counted in part 1 (R213). -/
def countNew (new : SlotCat → Bool) (s : State) : State :=
  [SlotCat.crc, .rcrc, .wd].foldl (fun t c => match c.chan with
    | some k => if new c then t.count k else t
    | none => t) s

/-- Whether any category is newly raised. -/
def anyCat (f : SlotCat → Bool) : Bool := f .sym || f .size || f .crc || f .rcrc || f .wd

/-- Part 5: the event a position makes, if any (R214). `P` is its record after part 4. -/
def eventOf (discovering : Bool) (p : Nat) (e : CycErr) (new : SlotCat → Bool) (changed crcErr : Bool)
    (P : Position) : Option Event :=
  if discovering then none
  else if anyCat new then some (.statusUpdate p P.status)
  else if e = .none ∧ !crcErr ∧ !P.rxm.remoteCrcError ∧ !P.rxm.watchdogError ∧ changed then
    some (.senseUpdate p P.rxm.sensor)
  else none

/-- What part 2 computes for position `p`, whose record is `P`. -/
def unpackedAt (s : State) (p : Nat) (P : Position) : Unpacked := unpackPosition s.sc.cycErr (s.rxFrame p) P

/-- `NEW[p]`. -/
def newAt (s : State) (p : Nat) (P : Position) : SlotCat → Bool :=
  newlyRaised s.sc.cycErr (unpackedAt s p P).crcErr (unpackedAt s p P).pos

/-- The record of position `p` after parts 2 to 4. -/
def classifiedAt (s : State) (p : Nat) (P : Position) : Position :=
  markPosition s.chan.discovering s.sc.cycErr (unpackedAt s p P).crcErr (unpackedAt s p P).pos

/-- The event of position `p`, if any. -/
def eventAt (s : State) (p : Nat) (P : Position) : Option Event :=
  eventOf s.chan.discovering p s.sc.cycErr (newAt s p P) (unpackedAt s p P).changed (unpackedAt s p P).crcErr
    (classifiedAt s p P)

/-- Parts 2 to 5 for position `p`, whose record is `P`. -/
def classifyRecord (p : Nat) (P : Position) (s : State) : State :=
  (countNew (newAt s p P) (s.setPos p (classifiedAt s p P))).emit (eventAt s p P)

/-- Parts 2 to 5 for position `p`. -/
def classifyPosition (p : Nat) (s : State) : State :=
  match s.pos? p with
  | some P => classifyRecord p P s
  | none => s

/-- Parts 1 to 5. -/
def classifyAll (s : State) : State := forPositions s.scanned classifyPosition (classifyCapture s)

/-- The CLASSIFY step: parts 1 to 5, then part 6 (R215). -/
def classifyStep (s : State) : Result :=
  if s.scanFits then
    if s.chan.discovering then afterDiscoveryCycle (classifyAll s)
    else .next ((classifyAll s).setPhase .hyst)
  else overScanned s s

end Sys2Proof.Machine
end

