-- ==== Sys2Proof/Machine/Operands.lean ====
section
/-! DEFINITION. The checks every command makes before its own effect (R280), by operand form, and the words of the
responses (R95). -/

namespace Sys2Proof.Machine

/-- A command without a slot address that discovery gates (formats N, V and W): the discovery gate, then the
precondition, then the effect (R280). -/
def channelCommand (pre : Bool) (s : State) (effect : State) : Result :=
  if s.chan.discovering then .next (s.reject .wrongState)
  else if pre then .next effect
  else .next (s.reject .wrongState)

/-- A command with a slot address (formats A, AV, AIV and AIM): the discovery gate, then the lookup of a live slot, then
the effect on its record (R280). -/
def slotCommand (a : Byte) (s : State) (effect : Position → Result) : Result :=
  if s.chan.discovering then .next (s.reject .wrongState)
  else if s.chan.nsats ≤ a then .next (s.reject .noSuchSlot)
  else match s.pos? a.toNat with
    | some P => effect P
    | none => .fault (.noSuchPosition a.toNat)

/-- A slot write (R288 to R293): it changes the TX registers, sets `TX_DIRTY` and answers OK. -/
def slotWrite (a : Byte) (f : TxRegs → TxRegs) (s : State) : Result :=
  slotCommand a s fun P =>
    .next ((s.setPos a.toNat { P with tx := { f P.tx with txDirty := true } }).respond .ok [])

/-- A slot read that changes no state: it answers OK and the words. -/
def slotRead (a : Byte) (words : Position → List Word) (s : State) : Result :=
  slotCommand a s fun P => .next (s.respond .ok (words P))

/-- A slot read of a whole frame (R302, R303). -/
def frameRead (a : Byte) (m : Memory) (words : Frame → List Word) (s : State) : Result :=
  slotCommand a s fun _ =>
    match hostFrame s.cfg m a.toNat with
    | some f => .next (s.respond .ok (words f))
    | none => .fault (.noSuchFrame a.toNat)

/-- A bit of a response word. -/
def bitAt (b : Bool) (i : Nat) : Word := BitVec.ofNat 32 b.toNat <<< i

/-- A field of a response word, zero-extended (R10) and placed with its bit 0 at bit `i`. -/
def fieldAt {w : Nat} (v : BitVec w) (i : Nat) : Word := v.setWidth 32 <<< i

/-- The words of a frame: byte 0 in bits 31:24 of word 0 (R95). -/
def frameWords (f : Frame) : List Word := [f.b0 ++ f.b1 ++ f.b2 ++ f.b3, f.b4 ++ f.b5 ++ f.b6 ++ f.b7]

/-- The words of GET_CHANNEL_STATE (R95, R297). -/
def channelWords (s : State) : List Word :=
  [bitAt s.chan.admin 0 ||| fieldAt s.chan.opstate 8 ||| bitAt s.chan.discovering 16 |||
     bitAt (s.sc.phase != .stopped) 17,
   fieldAt s.chan.thHigh 16 ||| fieldAt s.chan.thLow 0,
   fieldAt s.chan.nsats 0]

/-- `cliCnt(p)` of R95. -/
def clientCount (s : State) (P : Position) : Byte :=
  if s.cfg.clientCountdownShared then s.chan.cliCount else P.cliCountP

/-- The words of READ_STATUS (R95, R300). -/
def statusWords (s : State) (P : Position) : List Word :=
  [fieldAt P.status 0 ||| fieldAt P.dirty 8,
   bitAt P.tx.enable 0 ||| bitAt P.tx.invSrv 1 ||| bitAt P.tx.invCli 2 ||| bitAt P.tx.startMark 3 |||
     bitAt P.tx.txDirty 4 ||| bitAt P.rxm.watchdogError 8 ||| bitAt P.rxm.remoteCrcError 9 |||
     bitAt s.chan.slotCbl 16,
   fieldAt P.srvState.code 0 ||| fieldAt P.cliState.code 2 ||| fieldAt P.srvCount 8 |||
     fieldAt (clientCount s P) 16]

end Sys2Proof.Machine
end

