-- ==== Sys2Proof/Machine/ChannelCommands.lean ====
section
/-! DEFINITION. The channel commands, R281 to R287 and R295 to R297 (46_host_commands.md). -/

namespace Sys2Proof.Machine

/-- ENABLE (R281). -/
def execEnable (s : State) : Result :=
  channelCommand (!s.chan.admin && s.sc.phase == .stopped) s
    (({ s with
        chan := { s.chan.setDis false with admin := true, nextstart := s.now, wstart := s.now, sec := .zero } }.setPhase
      .wait).respond .ok [])

/-- DISABLE (R282): SC stops at its next WAIT step. -/
def execDisable (s : State) : Result :=
  channelCommand s.chan.admin s ({ s with chan := { s.chan.setDis true with admin := false } }.respond .ok [])

/-- DISCOVER (R180, R283): accepted without a response, which R185 or R186 gives later. -/
def execDiscover (s : State) : Result :=
  channelCommand (!s.chan.admin && s.sc.phase == .stopped) s
    { s with sc := { s.sc with discReq := some s.host, phase := .dStart } }

/-- SET_THRESHOLDS (R284): every pair of values is accepted (D46). -/
def execSetThresholds (high low : BitVec 16) (s : State) : Result :=
  channelCommand true s ({ s with chan := { s.chan with thHigh := high, thLow := low } }.respond .ok [])

/-- GET_STATS (R286): allowed during discovery; the words are those before the reset, which clears `CTR` only. -/
def execGetStats (reset : Bool) (s : State) : Result :=
  .next ({ s with chan := { s.chan with ctr := if reset then .zero else s.chan.ctr } }.respond .ok
    (s.chan.ctr.words ++ s.chan.sec.words))

/-- GET_SLOT_COUNT (R287). -/
def execGetSlotCount (s : State) : Result := channelCommand true s (s.respond .ok [fieldAt s.chan.nsats 0])

/-- GET_SLOT_HANDLE (R295): the handle is the address (D47). -/
def execGetSlotHandle (a : Byte) (s : State) : Result := slotRead a (fun _ => [fieldAt a 0]) s

/-- SET_CTRL_BLOCK (R296). -/
def execSetCtrlBlock (v : Bool) (s : State) : Result :=
  channelCommand true s ({ s with chan := s.chan.setCbl v }.respond .ok [])

/-- GET_CHANNEL_STATE (R297): allowed during discovery. -/
def execGetChannelState (s : State) : Result := .next (s.respond .ok (channelWords s))

end Sys2Proof.Machine
end

