-- ==== Sys2Proof/Machine/SlotReads.lean ====
section
/-! DEFINITION. The slot reads, R299 to R303 (46_host_commands.md). -/

namespace Sys2Proof.Machine

/-- READ_SENSOR (R299). -/
def execReadSensor (a : Byte) (s : State) : Result := slotRead a (fun P => [fieldAt P.rxm.sensor 0]) s

/-- READ_STATUS (R300): reading clears nothing. -/
def execReadStatus (a : Byte) (s : State) : Result := slotRead a (statusWords s) s

/-- GET_SLOT_STATS (R301): the words are those before the reset; the dirty flags are unchanged. -/
def execGetSlotStats (a : Byte) (reset : Bool) (s : State) : Result :=
  slotCommand a s fun P =>
    .next ((s.setPos a.toNat { P with sctr := if reset then .zero else P.sctr }).respond .ok P.sctr.words)

/-- READ_TX_FRAME (R302). -/
def execReadTxFrame (a : Byte) (s : State) : Result := frameRead a s.txBuf frameWords s

/-- READ_RX_FRAME (R303). -/
def execReadRxFrame (a : Byte) (s : State) : Result := frameRead a s.rxBuf frameWords s

end Sys2Proof.Machine
end

