-- ==== Sys2Proof/Machine/SlotWrites.lean ====
section
/-! DEFINITION. The slot writes, R288 to R293 (46_host_commands.md). None writes `TXBUF`: only the next build does. -/

namespace Sys2Proof.Machine

/-- SET_ACT_VALUE (R288). -/
def execSetActValue (a : Byte) (i : BitVec 2) (v : Byte) (s : State) : Result :=
  slotWrite a (fun t => { t with actVal := t.actVal.set i v }) s

/-- SET_ACT_MODE (R289): the mode is opaque to the block. -/
def execSetActMode (a : Byte) (i : BitVec 2) (m : BitVec 3) (s : State) : Result :=
  slotWrite a (fun t => { t with actMode := t.actMode.set i m }) s

/-- SET_SLOT_ENABLE (R290). -/
def execSetSlotEnable (a : Byte) (v : Bool) (s : State) : Result := slotWrite a (fun t => { t with enable := v }) s

/-- SET_INV_SERVER_CRC (R291). -/
def execSetInvServerCrc (a : Byte) (v : Bool) (s : State) : Result := slotWrite a (fun t => { t with invSrv := v }) s

/-- SET_INV_CLIENT_CRC (R292). -/
def execSetInvClientCrc (a : Byte) (v : Bool) (s : State) : Result := slotWrite a (fun t => { t with invCli := v }) s

end Sys2Proof.Machine
end

