-- ==== Sys2Proof/Machine/Dispatch.lean ====
section
/-! DEFINITION. The dispatch of a decoded command to its meaning. -/

namespace Sys2Proof.Machine

def exec (i : Instr) (s : State) : Host.Outcome State Fault Refusal :=
  match i with
  | .enable => Sys2Proof.Machine.execEnable s
  | .disable => Sys2Proof.Machine.execDisable s
  | .discover => Sys2Proof.Machine.execDiscover s
  | .setThresholds high low => Sys2Proof.Machine.execSetThresholds high low s
  | .getStats reset => Sys2Proof.Machine.execGetStats reset s
  | .getSlotCount => Sys2Proof.Machine.execGetSlotCount s
  | .getSlotHandle a => Sys2Proof.Machine.execGetSlotHandle a s
  | .setCtrlBlock v => Sys2Proof.Machine.execSetCtrlBlock v s
  | .getChannelState => Sys2Proof.Machine.execGetChannelState s
  | .setActValue a k v => Sys2Proof.Machine.execSetActValue a k v s
  | .setActMode a k m => Sys2Proof.Machine.execSetActMode a k m s
  | .setSlotEnable a v => Sys2Proof.Machine.execSetSlotEnable a v s
  | .setInvServerCrc a v => Sys2Proof.Machine.execSetInvServerCrc a v s
  | .setInvClientCrc a v => Sys2Proof.Machine.execSetInvClientCrc a v s
  | .readSensor a => Sys2Proof.Machine.execReadSensor a s
  | .readStatus a => Sys2Proof.Machine.execReadStatus a s
  | .getSlotStats a reset => Sys2Proof.Machine.execGetSlotStats a reset s
  | .readTxFrame a => Sys2Proof.Machine.execReadTxFrame a s
  | .readRxFrame a => Sys2Proof.Machine.execReadRxFrame a s

end Sys2Proof.Machine
end

