-- ==== Sys2Proof/Machine/Health.lean ====
section
/-! DEFINITION. The health hysteresis, R230 to R233 (45_health.md). -/

namespace Sys2Proof.Machine

/-- The error sum of R230: seven categories, `TXUND` left out, with no wrap. -/
def errorSum (t : Counters) : Nat :=
  t.rxovr.toNat + t.scantv.toNat + t.rxsize.toNat + t.rxsym.toNat + t.wd.toNat + t.rxcrc.toNat + t.rcrc.toNat

/-- The block test of R231. -/
def blockTest (sum : Nat) (c : Channel) : Channel :=
  if !c.errBlk && c.thHigh != 0 && c.thHigh.toNat ≤ sum then c.setErrBlk true else c

/-- The window boundary of R232, at the timestamp `now`. -/
def windowTest (now sum : Nat) (c : Channel) : Channel :=
  if c.wstart + Config.windowUs ≤ now then
    { (if c.errBlk && sum ≤ c.thLow.toNat then c.setErrBlk false else c) with sec := .zero, wstart := now }
  else c

/-- `healthEval()` of R233: the block test before the window test, on one sum. -/
def healthEval (now : Nat) (c : Channel) : Channel :=
  windowTest now (errorSum c.sec) (blockTest (errorSum c.sec) c)

/-- The HYST step (R215). -/
def hystStep (s : State) : State := { s with chan := healthEval s.now s.chan }.setPhase .sched

end Sys2Proof.Machine
end

