-- ==== Sys2Proof/Machine/Agents.lean ====
section
/-! DEFINITION. The agents of R6: SC's step in each phase, a host's command, the environment's capture, the consumption
of an event, and the schedule that says which of them moves. -/

namespace Sys2Proof.Machine

/-- SC's next step (44_scan_loop.md, 43_discovery.md). In STOPPED, and while a wait is not over, SC has no enabled step
and nothing changes (log 6). -/
def scStep (pick : Nat) (s : State) : Result :=
  match s.sc.phase with
  | .stopped => .next s
  | .wait => .next (waitStep s)
  | .build => buildStep pick s
  | .tx => txStep s
  | .rx => .next (rxStep s)
  | .classify => classifyStep s
  | .hyst => .next (hystStep s)
  | .sched => .next (schedStep s)
  | .dStart => .next (dStartStep s)
  | .dSettle1 => .next (settleStep .dEval s)
  | .dEval => dEvalStep s
  | .dSettle2 => .next (settleStep .dFinish s)
  | .dFinish => .next (dFinishStep s)

/-- A host's command, `execute(host, w0, DW)` of R280: an illegal word answers ILLEGAL_COMMAND (R91). A host with a
DISCOVER outstanding has no step until its response (R280, I14), so nothing changes. -/
def hostStep (h : Nat) (w0 dw : Word) (s : State) : Result :=
  if s.sc.discReq = some h then .next s
  else match decode w0 dw with
    | .ok i => exec i { s with host := h }
    | .error _ => .next ({ s with host := h }.reject .illegalCommand)

/-- `ENV_PUT(c)` (R171). -/
def envPut (c : List Pulse) (s : State) : State := { s with rxFifo := s.rxFifo ++ [c] }

/-- A host consumes the event at the head of `EVQ` (R347). DESIGN CHOICE (log 13): R347 leaves open which host, and whether one
that awaits its DISCOVER response may; here the consumption names no host and no wait disables it. -/
def takeEvent (s : State) : State := { s with evq := s.evq.tail }

/-- The step of the agent that is scheduled. -/
def moveStep (m : Move) (s : State) : Result :=
  match m with
  | .sc pick => scStep pick s
  | .host h w0 dw => hostStep h w0 dw s
  | .envPut c => .next (envPut c s)
  | .takeEvent => .next (takeEvent s)
  | .elapse => .next s

/-- The next entry of the schedule and the state without it: the oldest entry the state lists, or the free one. -/
def nextInput (s : State) : Input × State :=
  match s.inputs with
  | i :: rest => (i, { s with inputs := rest })
  | [] => (Config.freeInput s.draws, { s with draws := s.draws + 1 })

/-- One scheduled step: the time passes, then the agent moves (R6). -/
def scheduledStep (s : State) : Result :=
  moveStep (nextInput s).1.move { (nextInput s).2 with now := s.now + (nextInput s).1.dt }

/-- A host that has no DISCOVER outstanding. -/
def freeHost (s : State) : Nat := if s.sc.discReq = some 0 then 1 else 0

/-- The schedule entry in which host `h` issues the command `i` at once. -/
def commandInput (h : Nat) (i : Instr) : Input := ⟨0, .host h (encodeWord i) ((encodeData i).getD 0)⟩

end Sys2Proof.Machine
end

