-- ==== Sys2Proof/Machine/Step.lean ====
section
/-! DEFINITION. The step of the machine, and the placing of one command where the step takes its next move. -/

namespace Sys2Proof.Machine

/-- One atomic step of one agent (R5, R6). A configuration that breaks R8 is refused (R360). -/
def step (s : State) : Host.Outcome State Fault Refusal :=
  if s.cfg.wellFormed then scheduledStep s else .refused .badConfiguration

/-- `s` with a command scheduled next, issued at once by a host that may issue one. -/
def State.withFetchWord (s : State) (nbits w : Nat) : State :=
  { s with inputs := ⟨0, .host (freeHost s) (tableWords nbits w).1 (tableWords nbits w).2⟩ :: s.inputs }

end Sys2Proof.Machine
end

