-- ==== Sys2Proof/Safety.lean ====
section
/-! DEFINITION. The terms statements use: the invariant of R36 with what carries it from step to step, quiescence (R361),
and the machine-wide words "live slot" and "in discovery". -/

namespace Sys2Proof.Machine

/-- A live slot: `p < NSATS` (R20). -/
def State.live (s : State) (p : Nat) : Prop := p < s.chan.nsats.toNat

/-- The phases only a discovery enters after D_START (R31). -/
def Phase.inDiscovery : Phase → Bool
  | .dSettle1 | .dEval | .dSettle2 | .dFinish => true
  | _ => false

/-- The phases no discovery cycle passes through (R31, R215). -/
def Phase.outsideDiscovery : Phase → Bool
  | .stopped | .wait | .hyst | .sched | .dStart => true
  | _ => false

/-- The invariants of R36, R206 and R60, and the relations between `PHASE`, `PENDING` and discovery that carry them. -/
structure State.Inv (s : State) : Prop where
  /-- R8. -/
  cfgOk : s.cfg.wellFormed = true
  /-- R20: one record per position 0 … CAP − 1. -/
  positionsLen : s.positions.length = s.cap
  /-- R31. -/
  snapLen : s.sc.snap.length = s.cap
  /-- R36 item 1. -/
  disAdmin : s.chan.dis = !s.chan.admin
  /-- R36 item 2. -/
  scanIdle : s.chan.discovering = false → s.scanned = s.chan.nsats.toNat
  /-- R206: during discovery `SCANCOUNT = CAP`. -/
  scanBusy : s.chan.discovering = true → s.scanned = s.cap
  /-- R36 item 3. -/
  nsatsLe : s.chan.nsats.toNat ≤ s.cfg.maxDevices
  /-- R36 item 4, the records. -/
  unliveReset : s.chan.discovering = false → ∀ p P, s.chan.nsats.toNat ≤ p → s.pos? p = some P → P = .reset
  /-- R36 item 4, the buffers. -/
  unliveBytes : s.chan.discovering = false → ∀ a, 8 * s.chan.nsats.toNat ≤ a → s.txBuf.read a = 0 ∧ s.rxBuf.read a = 0
  /-- R60: no byte stands outside the buffers' `8·CAP` bytes. -/
  bufferEnd : ∀ a, 8 * s.cap ≤ a → s.txBuf.read a = 0 ∧ s.rxBuf.read a = 0
  /-- R36 item 5. -/
  adminIdle : s.chan.admin = true → s.chan.discovering = false
  txWf : s.txBuf.wf
  rxWf : s.rxBuf.wf
  /-- R181, R185, R186. -/
  dstepIff : s.chan.discovering = true ↔ s.sc.dstep ≠ .none
  phaseIn : s.sc.phase.inDiscovery = true → s.chan.discovering = true
  phaseOut : s.sc.phase.outsideDiscovery = true → s.chan.discovering = false
  /-- R180, R200: SC is stopped or about to discover only while the channel is disabled. -/
  idleDisabled : s.sc.phase = .stopped ∨ s.sc.phase = .dStart → s.chan.admin = false
  /-- R203, R205: a read is pending only in BUILD. -/
  pendingBuild : s.sc.phase ≠ .build → s.sc.pending = []
  /-- R201. -/
  pendingScanned : ∀ x ∈ s.sc.pending, x.1 < s.scanned
  /-- R180, R185, R186: a host awaits a DISCOVER response exactly while one is under way. -/
  requestIff : s.sc.discReq.isSome = true ↔ s.sc.phase = .dStart ∨ s.chan.discovering = true

/-- The state with one more response, to the host whose command is executed (R94). -/
def State.answer (s : State) (code : ResultCode) (words : List Word) : State :=
  { s with responses := s.responses ++ [⟨s.host, code, words⟩] }

/-- Bitwise exclusive or of two frames (R154). -/
def Frame.xor (x y : Frame) : Frame :=
  ⟨x.b0 ^^^ y.b0, x.b1 ^^^ y.b1, x.b2 ^^^ y.b2, x.b3 ^^^ y.b3, x.b4 ^^^ y.b4, x.b5 ^^^ y.b5, x.b6 ^^^ y.b6, x.b7 ^^^ y.b7⟩

/-- The frame whose only set bit is stream bit `k`: bit `7 − (k mod 8)` of byte `k / 8` (R63). -/
def Frame.oneBit (k : Nat) : Frame := frameAt ((List.replicate 8 0).set (k / 8) (1#8 <<< (7 - k % 8))) 0

/-- The bits of a field in send order, the most significant first (R81). -/
def fieldBits {n : Nat} (v : BitVec n) : List Bool := (List.range n).reverse.map v.getLsbD

/-- Quiescence (R361). No host command is ever in progress between two steps, since each is one step (R280). -/
def State.quiescent (s : State) : Bool :=
  s.sc.phase == .stopped && !s.chan.discovering && s.sc.discReq.isNone

end Sys2Proof.Machine
end

