-- ==== Sys2Proof/Certificates/Slice0/Obligations.lean ====
section
/-! DEFINITION. The statements for the provers, from the numbered rules of spec/. Every statement is about every state
(or every frame, word or configuration) it names, reachable or not. -/

section Statements

open Sys2Proof Sys2Proof.Machine

/-! ## Encodings -/

/-- R87 to R91, R96: decoding the words of a command gives the command back, at every operand value, whatever word
follows a one-word command. -/
def Obligations.CommandRoundTrip : Prop :=
  ∀ (i : Instr) (dw : Word), decode (encodeWord i) ((encodeData i).getD dw) = .ok i

/-- R88, R92: a word the decoder accepts is the encoding of the command it reads: every reserved bit is 0, and no bit of
an operand is dropped. -/
def Obligations.AcceptedWordsAreEncodings : Prop :=
  ∀ (w dw : Word) (i : Instr), decode w dw = .ok i →
    encodeWord i = w ∧ ∀ d, encodeData i = some d → d = dw

/-- R90: no word selects two rows of the opcode map. -/
def Obligations.OpcodeRowsDisjoint : Prop :=
  ∀ w : Word, ∀ r ∈ opcodeMap, ∀ q ∈ opcodeMap, w &&& r.mask = r.pattern → w &&& q.mask = q.pattern → r = q

/-- R90, R92: words written out from the opcode map decode to the commands they stand for, and illegal words of both
classes are refused by name. -/
def Obligations.KnownWordsDecode : Prop :=
  decode 0x01000000 0 = .ok .enable ∧
  decode 0x04000000 0x00050002 = .ok (.setThresholds 5 2) ∧
  decode 0x110103 0 = .error (.undefinedOpcode 0) ∧
  decode 0x100000C8 0 = .ok (.setActValue 0 0 200) ∧
  decode 0x11010305 0 = .ok (.setActMode 1 3 5) ∧
  decode 0x13020001 0 = .ok (.setInvServerCrc 2 true) ∧
  decode 0x22010001 0 = .ok (.getSlotStats 1 true) ∧
  decode 0x10000400 0 = .error (.reservedField .setActValue) ∧
  decode 0x0A000000 0 = .error (.undefinedOpcode 0x0A)

/-- R96: a line assembles to a command exactly when it is well-formed, and then it is the line of that command. -/
def Obligations.AssemblyIsFaithful : Prop :=
  ∀ l : AsmLine, l.assemble.isSome = l.wellFormed ∧ ∀ i, l.assemble = some i → i.toAsm = l

/-! ## The step, the gate and the agents -/

/-- R280: when the schedule's next entry is a command of a host that awaits no response, and its words decode, the step
is the command's execution after the entry's time has passed. -/
def Obligations.StepRunsDecodedCommand : Prop :=
  ∀ (s : State) (dt h : Nat) (w dw : Word) (rest : List Input) (i : Instr),
    s.cfg.wellFormed = true → s.inputs = ⟨dt, .host h w dw⟩ :: rest → s.sc.discReq ≠ some h → decode w dw = .ok i →
      step s = exec i { s with inputs := rest, now := s.now + dt, host := h }

/-- R91, R92, R280: an illegal word answers ILLEGAL_COMMAND with no words and changes nothing else; a host with a DISCOVER
outstanding has no step, so only the schedule and the time move on (that a schedule entry for it is used up is the
model's choice, log 6). -/
def Obligations.CommandsNotExecuted : Prop :=
  ∀ (s : State) (dt h : Nat) (w dw : Word) (rest : List Input),
    s.cfg.wellFormed = true → s.inputs = ⟨dt, .host h w dw⟩ :: rest →
      (s.sc.discReq ≠ some h → (∀ i, decode w dw ≠ .ok i) → step s = .next { s with
        inputs := rest, now := s.now + dt, host := h
        responses := s.responses ++ [⟨h, .illegalCommand, []⟩] }) ∧
      (s.sc.discReq = some h → step s = .next { s with inputs := rest, now := s.now + dt })

/-- R6, R171, R347: what the other scheduled moves do. The model's choices here: the schedule (log 2), a step's time before
its move (log 4), nothing for the consumption of an event from an empty queue (log 6), and that this consumption names no
host and is possible during any wait (log 13). -/
def Obligations.StepRunsScheduledMove : Prop :=
  ∀ (s : State) (dt : Nat) (rest : List Input), s.cfg.wellFormed = true →
    (∀ pick, s.inputs = ⟨dt, .sc pick⟩ :: rest → step s = scStep pick { s with inputs := rest, now := s.now + dt }) ∧
    (∀ c, s.inputs = ⟨dt, .envPut c⟩ :: rest →
      step s = .next { s with inputs := rest, now := s.now + dt, rxFifo := s.rxFifo ++ [c] }) ∧
    (s.inputs = ⟨dt, .takeEvent⟩ :: rest →
      step s = .next { s with inputs := rest, now := s.now + dt, evq := s.evq.tail }) ∧
    (s.inputs = ⟨dt, .elapse⟩ :: rest → step s = .next { s with inputs := rest, now := s.now + dt })

/-- R8, R360: a configuration that breaks one of the conditions of R8 is refused. -/
def Obligations.BadConfigurationRefused : Prop :=
  ∀ s : State,
    ¬ ((1 ≤ s.cfg.maxDevices ∧ s.cfg.maxDevices ≤ 255) ∧ 0 < s.cfg.scanIntervalUs ∧
      (s.cfg.lhMin ≤ s.cfg.t1h ∧ s.cfg.t1h ≤ s.cfg.lhMax ∧ s.cfg.spMin ≤ s.cfg.t1h + s.cfg.t1l ∧
        s.cfg.t1h + s.cfg.t1l ≤ s.cfg.spMax) ∧
      (s.cfg.shMin ≤ s.cfg.t0h ∧ s.cfg.t0h ≤ s.cfg.shMax ∧ ¬ (s.cfg.lhMin ≤ s.cfg.t0h ∧ s.cfg.t0h ≤ s.cfg.lhMax) ∧
        s.cfg.spMin ≤ s.cfg.t0h + s.cfg.t0l ∧ s.cfg.t0h + s.cfg.t0l ≤ s.cfg.spMax) ∧
      s.cfg.selftestTail ≤ 255) →
    step s = .refused .badConfiguration

/-- R280: during discovery every command but GET_STATS and GET_CHANNEL_STATE answers WRONG_STATE and changes nothing,
whatever its slot address. -/
def Obligations.WrongStateAnswers : Prop :=
  ∀ (s : State) (i : Instr), s.chan.discovering = true → i.mnemonic ≠ .getStats → i.mnemonic ≠ .getChannelState →
    exec i s = .next (s.answer .wrongState [])

/-- R280, R344: outside discovery a slot address at or above `NSATS` answers NO_SUCH_SLOT and changes nothing. -/
def Obligations.NoSuchSlotAnswers : Prop :=
  ∀ (s : State) (i : Instr) (a : Byte), s.chan.discovering = false → i.slot? = some a →
    s.chan.nsats.toNat ≤ a.toNat → exec i s = .next (s.answer .noSuchSlot [])

/-- R285: a command that answers a code other than OK leaves the state unchanged. -/
def Obligations.FailedCommandChangesNothing : Prop :=
  ∀ (s t : State) (i : Instr) (r : Response), exec i s = .next t → t.responses = s.responses ++ [r] → r.code ≠ .ok →
    t = { s with responses := s.responses ++ [r] }

/-! ## Channel commands -/

/-- R281: ENABLE on a disabled, stopped channel outside discovery starts scanning at once, with a fresh health window, and
leaves `ERRBLK` and `CBL`; in every other state it answers WRONG_STATE and changes nothing. -/
def Obligations.EnableStartsScanning : Prop :=
  ∀ s : State,
    (s.chan.discovering = false → s.chan.admin = false → s.sc.phase = .stopped →
      exec .enable s = .next ({ s with
        chan := { s.chan with
          admin := true, opstate := s.chan.opstate &&& 0b110, nextstart := s.now, wstart := s.now
          sec := ⟨0, 0, 0, 0, 0, 0, 0, 0⟩ }
        sc := { s.sc with phase := .wait } }.answer .ok [])) ∧
    (¬ (s.chan.discovering = false ∧ s.chan.admin = false ∧ s.sc.phase = .stopped) →
      exec .enable s = .next (s.answer .wrongState []))

/-- R282: DISABLE on an enabled channel outside discovery changes `ADMIN` and `DIS` only, whatever SC does, so SC finishes
its cycle; in every other state it answers WRONG_STATE and changes nothing. -/
def Obligations.DisableClearsAdmin : Prop :=
  ∀ s : State,
    (s.chan.discovering = false → s.chan.admin = true →
      exec .disable s = .next ({ s with
        chan := { s.chan with admin := false, opstate := s.chan.opstate ||| 0b001 } }.answer .ok [])) ∧
    (¬ (s.chan.discovering = false ∧ s.chan.admin = true) → exec .disable s = .next (s.answer .wrongState []))

/-- R283: DISCOVER on a disabled, stopped channel outside discovery records the host and starts, with no response; in every
other state it answers WRONG_STATE and changes nothing. -/
def Obligations.DiscoverStartsWithoutResponse : Prop :=
  ∀ s : State,
    (s.chan.discovering = false → s.chan.admin = false → s.sc.phase = .stopped →
      exec .discover s = .next { s with sc := { s.sc with discReq := some s.host, phase := .dStart } }) ∧
    (¬ (s.chan.discovering = false ∧ s.chan.admin = false ∧ s.sc.phase = .stopped) →
      exec .discover s = .next (s.answer .wrongState []))

/-- R284: SET_THRESHOLDS outside discovery writes the two thresholds, at every pair of values; both come from its data
word; during discovery it answers WRONG_STATE and changes nothing. -/
def Obligations.SetThresholdsFromDataWord : Prop :=
  (∀ (s : State) (high low : BitVec 16),
    (s.chan.discovering = false → exec (.setThresholds high low) s = .next ({ s with
      chan := { s.chan with thHigh := high, thLow := low } }.answer .ok [])) ∧
    (s.chan.discovering = true → exec (.setThresholds high low) s = .next (s.answer .wrongState []))) ∧
  ∀ high low : BitVec 16, decode 0x04000000 (high ++ low) = .ok (.setThresholds high low)

/-- R286: GET_STATS, in discovery too: sixteen words, the values before any reset; the reset clears the lifetime counters
only. -/
def Obligations.GetStatsWordsAndReset : Prop :=
  ∀ (s : State) (v0 : Bool),
    exec (.getStats v0) s = .next ({ s with
      chan := { s.chan with ctr := if v0 then ⟨0, 0, 0, 0, 0, 0, 0, 0⟩ else s.chan.ctr } }.answer .ok
      [s.chan.ctr.txund, s.chan.ctr.rxovr, s.chan.ctr.scantv, s.chan.ctr.rxsize,
       s.chan.ctr.rxsym, s.chan.ctr.wd, s.chan.ctr.rxcrc, s.chan.ctr.rcrc,
       s.chan.sec.txund, s.chan.sec.rxovr, s.chan.sec.scantv, s.chan.sec.rxsize,
       s.chan.sec.rxsym, s.chan.sec.wd, s.chan.sec.rxcrc, s.chan.sec.rcrc])

/-- R287, R295, R296: outside discovery GET_SLOT_COUNT answers `NSATS`, GET_SLOT_HANDLE of a live slot its address and of
any other address NO_SUCH_SLOT, and SET_CTRL_BLOCK writes bit 2 of `OPSTATE`; during discovery each answers WRONG_STATE. -/
def Obligations.CountHandleAndControlBlock : Prop :=
  ∀ s : State,
    (s.chan.discovering = false →
      exec .getSlotCount s = .next (s.answer .ok [BitVec.ofNat 32 s.chan.nsats.toNat]) ∧
      (∀ a : Byte, a.toNat < s.chan.nsats.toNat → (s.pos? a.toNat).isSome = true →
        exec (.getSlotHandle a) s = .next (s.answer .ok [BitVec.ofNat 32 a.toNat])) ∧
      (∀ a : Byte, s.chan.nsats.toNat ≤ a.toNat → exec (.getSlotHandle a) s = .next (s.answer .noSuchSlot [])) ∧
      ∀ v, exec (.setCtrlBlock v) s = .next ({ s with
        chan := { s.chan with
          opstate := if v then s.chan.opstate ||| 0b100 else s.chan.opstate &&& 0b011 } }.answer .ok [])) ∧
    (s.chan.discovering = true →
      exec .getSlotCount s = .next (s.answer .wrongState []) ∧
      (∀ a, exec (.getSlotHandle a) s = .next (s.answer .wrongState [])) ∧
      ∀ v, exec (.setCtrlBlock v) s = .next (s.answer .wrongState []))

/-- R297, R95: GET_CHANNEL_STATE, in discovery too, changes nothing and answers three words; every bit of each. -/
def Obligations.ChannelStateWords : Prop :=
  ∀ s : State, ∃ w0 w1 w2 : Word, exec .getChannelState s = .next (s.answer .ok [w0, w1, w2]) ∧
    (∀ b < 32, w0.getLsbD b =
      if b = 0 then s.chan.admin
      else if 8 ≤ b ∧ b < 11 then s.chan.opstate.getLsbD (b - 8)
      else if b = 16 then s.chan.discovering
      else if b = 17 then s.sc.phase != .stopped
      else false) ∧
    w1 = s.chan.thHigh ++ s.chan.thLow ∧
    w2 = BitVec.ofNat 32 s.chan.nsats.toNat

/-! ## Slot writes and reads -/

/-- R288, R293: SET_ACT_VALUE of a live slot writes one actuator value and sets `TX_DIRTY`, and nothing else: the other
actuators of the position, every other position, both buffers and every channel register stay. -/
def Obligations.SetActValueWritesOneActuator : Prop :=
  ∀ (s : State) (a : Byte) (i : BitVec 2) (v : Byte) (P : Position), s.chan.discovering = false →
    a.toNat < s.chan.nsats.toNat → s.pos? a.toNat = some P →
    ∃ q : Quad Byte,
      exec (.setActValue a i v) s = .next ({ s with
        positions := s.positions.set a.toNat { P with tx := { P.tx with actVal := q, txDirty := true } } }.answer .ok [])
      ∧ ∀ k, q.get k = if k = i then v else P.tx.actVal.get k

/-- R289, R293: SET_ACT_MODE, as SET_ACT_VALUE for one mode. -/
def Obligations.SetActModeWritesOneMode : Prop :=
  ∀ (s : State) (a : Byte) (i : BitVec 2) (m : BitVec 3) (P : Position), s.chan.discovering = false →
    a.toNat < s.chan.nsats.toNat → s.pos? a.toNat = some P →
    ∃ q : Quad (BitVec 3),
      exec (.setActMode a i m) s = .next ({ s with
        positions := s.positions.set a.toNat { P with tx := { P.tx with actMode := q, txDirty := true } } }.answer .ok [])
      ∧ ∀ k, q.get k = if k = i then m else P.tx.actMode.get k

/-- R290, R291, R292, R293: the three flag writes of a live slot write their flag, set `TX_DIRTY`, and nothing else. -/
def Obligations.FlagWritesWriteOneFlag : Prop :=
  ∀ (s : State) (a : Byte) (v : Bool) (P : Position), s.chan.discovering = false →
    a.toNat < s.chan.nsats.toNat → s.pos? a.toNat = some P →
    exec (.setSlotEnable a v) s = .next ({ s with
      positions := s.positions.set a.toNat { P with tx := { P.tx with enable := v, txDirty := true } } }.answer .ok []) ∧
    exec (.setInvServerCrc a v) s = .next ({ s with
      positions := s.positions.set a.toNat { P with tx := { P.tx with invSrv := v, txDirty := true } } }.answer .ok []) ∧
    exec (.setInvClientCrc a v) s = .next ({ s with
      positions := s.positions.set a.toNat { P with tx := { P.tx with invCli := v, txDirty := true } } }.answer .ok [])

/-- R299, R300, R95, R28: READ_SENSOR and READ_STATUS of a live slot change nothing; every bit of their words, the self-test
states as the numbers 0 INACTIVE, 1 ACTIVE and 2 DEACTIVATING. -/
def Obligations.SensorAndStatusWords : Prop :=
  ∀ (s : State) (a : Byte) (P : Position), s.chan.discovering = false →
    a.toNat < s.chan.nsats.toNat → s.pos? a.toNat = some P →
    exec (.readSensor a) s = .next (s.answer .ok [BitVec.ofNat 32 P.rxm.sensor.toNat]) ∧
    ∃ w0 w1 w2 : Word, exec (.readStatus a) s = .next (s.answer .ok [w0, w1, w2]) ∧
      (∀ b < 32, w0.getLsbD b =
        if b < 5 then P.status.getLsbD b
        else if 8 ≤ b ∧ b < 13 then P.dirty.getLsbD (b - 8)
        else false) ∧
      (∀ b < 32, w1.getLsbD b =
        if b = 0 then P.tx.enable
        else if b = 1 then P.tx.invSrv
        else if b = 2 then P.tx.invCli
        else if b = 3 then P.tx.startMark
        else if b = 4 then P.tx.txDirty
        else if b = 8 then P.rxm.watchdogError
        else if b = 9 then P.rxm.remoteCrcError
        else if b = 16 then s.chan.opstate != 0
        else false) ∧
      (∀ b < 32, w2.getLsbD b =
        if b = 0 then P.srvState == .active
        else if b = 1 then P.srvState == .deactivating
        else if b = 2 then P.cliState == .active
        else if b = 3 then P.cliState == .deactivating
        else if 8 ≤ b ∧ b < 16 then P.srvCount.getLsbD (b - 8)
        else if 16 ≤ b ∧ b < 24 then
          (if s.cfg.clientCountdownShared then s.chan.cliCount else P.cliCountP).getLsbD (b - 16)
        else false)

/-- R301: GET_SLOT_STATS of a live slot answers the five counters before any reset, and a reset clears those alone. -/
def Obligations.SlotStatsWordsAndReset : Prop :=
  ∀ (s : State) (a : Byte) (v0 : Bool) (P : Position), s.chan.discovering = false →
    a.toNat < s.chan.nsats.toNat → s.pos? a.toNat = some P →
    exec (.getSlotStats a v0) s = .next ({ s with
      positions := s.positions.set a.toNat { P with sctr := if v0 then ⟨0, 0, 0, 0, 0⟩ else P.sctr } }.answer .ok
      [P.sctr.sym, P.sctr.size, P.sctr.crc, P.sctr.rcrc, P.sctr.wd])

/-- R302, R303, R95: the frame reads of a live slot change nothing and answer the 8 bytes of their buffer, byte 0 in
bits 31:24 of word 0. -/
def Obligations.FrameReadsAnswerTheBuffer : Prop :=
  ∀ (s : State) (a : Byte), s.chan.discovering = false →
    a.toNat < s.chan.nsats.toNat → (s.pos? a.toNat).isSome = true → a.toNat < s.cap →
    exec (.readTxFrame a) s = .next (s.answer .ok
      [s.txBuf.read (8 * a.toNat) ++ s.txBuf.read (8 * a.toNat + 1) ++ s.txBuf.read (8 * a.toNat + 2) ++
         s.txBuf.read (8 * a.toNat + 3),
       s.txBuf.read (8 * a.toNat + 4) ++ s.txBuf.read (8 * a.toNat + 5) ++ s.txBuf.read (8 * a.toNat + 6) ++
         s.txBuf.read (8 * a.toNat + 7)]) ∧
    exec (.readRxFrame a) s = .next (s.answer .ok
      [s.rxBuf.read (8 * a.toNat) ++ s.rxBuf.read (8 * a.toNat + 1) ++ s.rxBuf.read (8 * a.toNat + 2) ++
         s.rxBuf.read (8 * a.toNat + 3),
       s.rxBuf.read (8 * a.toNat + 4) ++ s.rxBuf.read (8 * a.toNat + 5) ++ s.rxBuf.read (8 * a.toNat + 6) ++
         s.rxBuf.read (8 * a.toNat + 7)])

/-- R294, R293: what no command writes: `NSATS` and `SCANCOUNT`; the buffers and the queues of SC and ENV; a position's
`START_MARK`, RX mirror, status, dirty flags and self-test state; and no command clears `TX_DIRTY`. -/
def Obligations.FieldsAHostCannotWrite : Prop :=
  ∀ (s t : State) (i : Instr), exec i s = .next t →
    (t.cfg = s.cfg ∧ t.now = s.now ∧ t.txBuf = s.txBuf ∧ t.rxBuf = s.rxBuf ∧ t.rxFifo = s.rxFifo ∧ t.txLog = s.txLog ∧
      t.evq = s.evq ∧ t.host = s.host ∧ t.inputs = s.inputs ∧ t.draws = s.draws) ∧
    (t.chan.nsats = s.chan.nsats ∧ t.chan.scancount = s.chan.scancount ∧ t.chan.discovering = s.chan.discovering ∧
      t.chan.cliCount = s.chan.cliCount) ∧
    t.positions.length = s.positions.length ∧
    ∀ p P Q, s.pos? p = some P → t.pos? p = some Q →
      Q.rxm = P.rxm ∧ Q.status = P.status ∧ Q.dirty = P.dirty ∧ Q.srvState = P.srvState ∧ Q.srvCount = P.srvCount ∧
      Q.cliState = P.cliState ∧ Q.cliCountP = P.cliCountP ∧ Q.tx.startMark = P.tx.startMark ∧
      (P.tx.txDirty = true → Q.tx.txDirty = true)

/-! ## CRC, codec, PHY -/

/-- R153: the two stored nibbles are complements; the plain one verifies and the inverted one does not; a frame verifies
exactly when its stored nibble is the plain checksum. -/
def Obligations.CrcComplementLaw : Prop :=
  ∀ b : Frame,
    (crcStore b true).b7.extractLsb' 0 4 = ~~~ ((crcStore b false).b7.extractLsb' 0 4) ∧
    crcVerify (crcStore b false) = true ∧ crcVerify (crcStore b true) = false ∧
    (crcVerify b = true ↔ b.b7.extractLsb' 0 4 = crc4 b)

/-- R151: `crcStore` leaves bytes 0 … 6 and the high nibble of byte 7 as they were, and does not depend on the old low
nibble. -/
def Obligations.CrcStoreKeepsTheRest : Prop :=
  ∀ (b : Frame) (inv : Bool) (n : BitVec 4),
    crcStore b inv = { b with b7 := (crcStore b inv).b7 } ∧
    (crcStore b inv).b7.extractLsb' 4 4 = b.b7.extractLsb' 4 4 ∧
    (crcStore b inv).b7.extractLsb' 0 4 = (if inv then ~~~ crc4 b else crc4 b) ∧
    crcStore { b with b7 := b.b7.extractLsb' 4 4 ++ n } inv = crcStore b inv

/-- R154: the checksum is linear, a single covered bit gives the listed value, and so every single-bit error in bytes
0 … 6 is detected. -/
def Obligations.CrcDetectsSingleBitErrors : Prop :=
  (∀ x y : Frame, crc4 (x.xor y) = crc4 x ^^^ crc4 y) ∧
  (∀ k < 56, ∀ v : Byte, crc4 { Frame.oneBit k with b7 := v } =
    [0x3#4, 0x6#4, 0xC#4, 0xB#4, 0x5#4, 0xA#4, 0x7#4, 0xE#4, 0xF#4, 0xD#4, 0x9#4, 0x1#4, 0x2#4, 0x4#4, 0x8#4].getD
      ((55 - k) % 15) 0) ∧
  ∀ x : Frame, ∀ k < 56, crcVerify x = true → crcVerify (x.xor (Frame.oneBit k)) = false

/-- R142, R83: unpack inverts pack at every field value; pack after unpack clears the reserved bits alone. -/
def Obligations.CodecRoundTrip : Prop :=
  (∀ (f : Fields) (x : Byte), (unpack (pack f) x).1 = f) ∧
  ∀ (b : Frame) (x : Byte), pack (unpack b x).1 = { b with b6 := b.b6 &&& 0xF7, b7 := b.b7 &&& 0x3F }

/-- R81: the 64 bits of a packed frame in send order are the fields in the listed order, most significant bit first. -/
def Obligations.FrameStreamLayout : Prop :=
  ∀ f : Fields, bitsOfBytes (pack f).bytes =
    fieldBits f.sensor ++ fieldBits f.act.v3 ++ fieldBits f.act.v2 ++ fieldBits f.act.v1 ++ fieldBits f.act.v0 ++
    fieldBits f.mode.v3 ++ fieldBits f.mode.v2 ++ fieldBits f.mode.v1 ++ fieldBits f.mode.v0 ++
    [false, f.enable, f.invertClientCrc, f.startMark, false, false, f.watchdogError, f.remoteCrcError] ++
    fieldBits f.crc

/-- R167, R170: under an admitted configuration the decoder reads back what the encoder sent. -/
def Obligations.PhyRoundTrip : Prop :=
  ∀ (cfg : Config) (x : List Byte), cfg.wellFormed = true →
    phyDecode cfg (phyEncode cfg x (8 * x.length)).1 (8 * x.length) = .ok x (8 * x.length)

/-- R163 to R166: one bad pulse anywhere, or a wrong first level, is a symbol error for the whole capture. -/
def Obligations.BadPulseFailsTheCapture : Prop :=
  ∀ (cfg : Config) (c : List Pulse) (expected : Nat),
    (∀ q ∈ c, (¬ (cfg.lhMin ≤ q.dur0 ∧ q.dur0 ≤ cfg.lhMax) ∧ ¬ (cfg.shMin ≤ q.dur0 ∧ q.dur0 ≤ cfg.shMax)) ∨
      ¬ (cfg.spMin ≤ q.dur0 + q.dur1 ∧ q.dur0 + q.dur1 ≤ cfg.spMax) → phyDecode cfg c expected = .symErr) ∧
    ∀ q rest, c = q :: rest → q.level0 = false → phyDecode cfg c expected = .symErr

/-- R166, R169: a capture whose pulses are all good decodes; its size is its length, and it gives a byte for every whole
group of 8 among the expected bits. -/
def Obligations.GoodCaptureDecodes : Prop :=
  ∀ (cfg : Config) (train : List Pulse) (expected : Nat),
    (∀ q rest, train = q :: rest → q.level0 = true) →
    (∀ q ∈ train, ((cfg.lhMin ≤ q.dur0 ∧ q.dur0 ≤ cfg.lhMax) ∨ (cfg.shMin ≤ q.dur0 ∧ q.dur0 ≤ cfg.shMax)) ∧
      cfg.spMin ≤ q.dur0 + q.dur1 ∧ q.dur0 + q.dur1 ≤ cfg.spMax) →
    ∃ bytes, phyDecode cfg train expected = .ok bytes train.length ∧ bytes.length = min train.length expected / 8 ∧
      ∀ j k, j < bytes.length → k < 8 → ∀ q, train[8 * j + (7 - k)]? = some q →
        (bytes.getD j 0).getLsbD k = decide (cfg.lhMin ≤ q.dur0 ∧ q.dur0 ≤ cfg.lhMax)

/-! ## The scan cycle -/

/-- R200, R201, R202: the WAIT step starts a cycle at its time while enabled, and stops SC while disabled. Before its time R200
only says that it is not enabled; that SC, scheduled then, changes nothing is the model's choice (log 6). -/
def Obligations.WaitStepStartsOrStops : Prop :=
  ∀ (s : State) (pick : Nat), s.sc.phase = .wait →
    scStep pick s = .next (
      if s.chan.admin = false then { s with sc := { s.sc with phase := .stopped } }
      else if s.chan.nextstart ≤ s.now then { s with
        chan := { s.chan with
          nextstart := s.chan.nextstart + s.cfg.scanIntervalUs
          cliCount :=
            if s.cfg.clientCountdownShared = true ∧ s.chan.cliCount ≠ 0 then s.chan.cliCount - 1 else s.chan.cliCount }
        sc := { s.sc with pending := pendingReads s.scanned, phase := .build } }
      else s)

/-- R201: the reads of a build are every group of every scanned position, each once. -/
def Obligations.BuildReadsEveryGroupOnce : Prop :=
  ∀ n : Nat, (pendingReads n).Nodup ∧ ∀ p g, (p, g) ∈ pendingReads n ↔ p < n

/-- R203, R204: a group read takes one pending read away and copies that group of that position into its snapshot; VALUES
and MODES write nothing else; FLAGS also writes `START_MARK`, clears `TX_DIRTY`, and runs both self-tests on the flags just
read, whose results are their states and countdowns after it. The free choice reaches every pending read. -/
def Obligations.BuildReadCopiesOneGroup : Prop :=
  (∀ (s : State) (x : Nat × Group), x ∈ s.sc.pending → ∃ pick, s.sc.pending[pick % s.sc.pending.length]? = some x) ∧
  ∀ (s : State) (pick p : Nat) (g : Group) (P : Position) (n : Snap), s.sc.phase = .build →
    s.sc.pending[pick % s.sc.pending.length]? = some (p, g) → s.pos? p = some P → s.sc.snap[p]? = some n →
    (g = .values → scStep pick s = .next { s with
      sc := { s.sc with
        pending := s.sc.pending.erase (p, g), snap := s.sc.snap.set p { n with actVal := P.tx.actVal } } }) ∧
    (g = .modes → scStep pick s = .next { s with
      sc := { s.sc with
        pending := s.sc.pending.erase (p, g), snap := s.sc.snap.set p { n with actMode := P.tx.actMode } } }) ∧
    (g = .flags → scStep pick s = .next { s with
      chan := { s.chan with
        cliCount := (clientTest s.cfg P.tx.invCli P.cliState s.chan.cliCount P.cliCountP).2.1 }
      positions := s.positions.set p { P with
        tx := { P.tx with startMark := decide (p = 0), txDirty := false }
        srvState := (serverTest s.cfg P.tx.invSrv P.srvState P.srvCount).1
        srvCount := (serverTest s.cfg P.tx.invSrv P.srvState P.srvCount).2
        cliState := (clientTest s.cfg P.tx.invCli P.cliState s.chan.cliCount P.cliCountP).1
        cliCountP := (clientTest s.cfg P.tx.invCli P.cliState s.chan.cliCount P.cliCountP).2.2 }
      sc := { s.sc with
        pending := s.sc.pending.erase (p, g)
        snap := s.sc.snap.set p { n with
          startMark := decide (p = 0), enable := P.tx.enable, invSrv := P.tx.invSrv, invCli := P.tx.invCli } } })

/-- R204, R202, the self-test transitions of the FLAGS read. A set flag makes the state ACTIVE from every state; an INACTIVE
test with a clear flag stays. A cleared server self-test is DEACTIVATING for `TAIL` cycles, counting down from `TAIL`, and
INACTIVE from then on; the client self-test with its own countdown does the same, and so it does with the shared
countdown, ticked once per cycle, while no other position reloads it. A shared tail lasts as long as the shared countdown,
whichever position loaded it; only a position that clears an ACTIVE test loads it. `TAIL = 0` skips DEACTIVATING. -/
def Obligations.SelfTestTailLength : Prop :=
  ∀ (cfg : Config) (c shared : Byte), cfg.selftestTail ≤ 255 →
    (∀ st, serverTest cfg true st c = (.active, 0) ∧
      clientTest cfg true st shared c = (.active, shared, if cfg.clientCountdownShared then c else 0)) ∧
    serverTest cfg false .inactive c = (.inactive, c) ∧
    clientTest cfg false .inactive shared c = (.inactive, shared, c) ∧
    (∀ inv st, (clientTest cfg inv st shared c).2.1 =
      if cfg.clientCountdownShared = true ∧ inv = false ∧ st = .active ∧ 0 < cfg.selftestTail then
        BitVec.ofNat 8 cfg.selftestTail
      else shared) ∧
    ∀ k, 0 < k →
      (fun x => serverTest cfg false x.1 x.2)^[k] (.active, c) =
        (if k ≤ cfg.selftestTail then (.deactivating, BitVec.ofNat 8 (cfg.selftestTail + 1 - k))
         else (.inactive, if cfg.selftestTail = 0 then c else 0)) ∧
      (cfg.clientCountdownShared = false →
        (fun x => clientTest cfg false x.1 (clientTick cfg x.2.1) x.2.2)^[k] (.active, shared, c) =
          (if k ≤ cfg.selftestTail then (.deactivating, shared, BitVec.ofNat 8 (cfg.selftestTail + 1 - k))
           else (.inactive, shared, if cfg.selftestTail = 0 then c else 0))) ∧
      (cfg.clientCountdownShared = true →
        (fun x => clientTest cfg false x.1 (clientTick cfg x.2.1) x.2.2)^[k] (.active, shared, c) =
          (if k ≤ cfg.selftestTail then (.deactivating, BitVec.ofNat 8 (cfg.selftestTail + 1 - k), c)
           else (.inactive, if cfg.selftestTail = 0 then BitVec.ofNat 8 (shared.toNat - k) else 0, c)) ∧
        (fun x => clientTest cfg false x.1 (clientTick cfg x.2.1) x.2.2)^[k] (.deactivating, shared, c) =
          (if k < shared.toNat then .deactivating else .inactive, BitVec.ofNat 8 (shared.toNat - k), c))

/-- R205, R206, R140, R151: the completion of a build writes the frame of every scanned position from its snapshot, no
byte of any other position, and nothing else but the phase. -/
def Obligations.BuildCompletionWritesFrames : Prop :=
  ∀ (s : State) (pick : Nat), s.sc.phase = .build → s.sc.pending = [] → s.txBuf.wf →
    s.scanned ≤ s.positions.length → s.scanned ≤ s.sc.snap.length → s.scanned ≤ s.cap →
    ∃ m : Memory, scStep pick s = .next { s with txBuf := m, sc := { s.sc with phase := .tx } } ∧ m.wf ∧
      (∀ p n, p < s.scanned → s.sc.snap[p]? = some n →
        m.frame p = crcStore (pack
          ⟨0, n.actVal, n.actMode, n.enable, n.invCli, n.startMark, false, false, 0⟩) n.invSrv) ∧
      ∀ a, 8 * s.scanned ≤ a → m.read a = s.txBuf.read a

/-- R207, R208, R162: the TX step appends one train of exactly `64 · SCANCOUNT` pulses, pulse `64p + 8j + (7 − k)` of
which carries bit `k` of byte `j` of the frame of position `p`, and counts no underrun. -/
def Obligations.TransmitTrainLayout : Prop :=
  ∀ (s : State) (pick : Nat), s.sc.phase = .tx →
    s.scanned ≤ s.positions.length → s.scanned ≤ s.sc.snap.length → s.scanned ≤ s.cap →
    ∃ train : List Pulse,
      scStep pick s = .next { s with txLog := s.txLog ++ [train], sc := { s.sc with phase := .rx } } ∧
      train.length = 64 * s.scanned ∧
      ∀ p j k, p < s.scanned → j < 8 → k < 8 →
        train[64 * p + 8 * j + (7 - k)]? = some (
          if (s.txBuf.read (8 * p + j)).getLsbD k then ⟨true, s.cfg.t1h, false, s.cfg.t1l⟩
          else ⟨true, s.cfg.t0h, false, s.cfg.t0l⟩)

/-- R209: the RX step takes the oldest capture, or the empty one when none waits. -/
def Obligations.ReceiveTakesOldestCapture : Prop :=
  ∀ (s : State) (pick : Nat), s.sc.phase = .rx →
    (s.rxFifo = [] → scStep pick s = .next { s with sc := { s.sc with capture := [], phase := .classify } }) ∧
    ∀ c rest, s.rxFifo = c :: rest →
      scStep pick s = .next { s with rxFifo := rest, sc := { s.sc with capture := c, phase := .classify } }

/-- R210: what a capture does to `CYCERR`, the receive FIFO, `RXBUF` and the channel counters of the cycle-level errors,
once per cycle. -/
def Obligations.CycleLevelErrors : Prop :=
  ∀ s : State, s.rxBuf.wf →
    (phyDecode s.cfg s.sc.capture (64 * s.scanned) = .symErr →
      (classifyAll s).sc.cycErr = .sym ∧ (classifyAll s).rxFifo = [] ∧ (classifyAll s).rxBuf = s.rxBuf ∧
      (classifyAll s).chan.ctr = { s.chan.ctr with rxsym := s.chan.ctr.rxsym + 1 } ∧
      (classifyAll s).chan.sec = { s.chan.sec with rxsym := s.chan.sec.rxsym + 1 }) ∧
    ∀ bytes n, phyDecode s.cfg s.sc.capture (64 * s.scanned) = .ok bytes n →
      (classifyAll s).rxFifo = s.rxFifo ∧
      (n ≠ 64 * s.scanned →
        (classifyAll s).sc.cycErr = .size ∧ (classifyAll s).rxBuf = s.rxBuf ∧
        (classifyAll s).chan.ctr = { s.chan.ctr with
          rxsize := s.chan.ctr.rxsize + 1
          rxovr := if 64 * s.scanned < n then s.chan.ctr.rxovr + 1 else s.chan.ctr.rxovr } ∧
        (classifyAll s).chan.sec = { s.chan.sec with
          rxsize := s.chan.sec.rxsize + 1
          rxovr := if 64 * s.scanned < n then s.chan.sec.rxovr + 1 else s.chan.sec.rxovr }) ∧
      (n = 64 * s.scanned →
        (classifyAll s).sc.cycErr = .none ∧
        (∀ p j, p < s.scanned → j < 8 → (classifyAll s).rxBuf.read (8 * p + j) = bytes.getD (8 * p + j) 0) ∧
        ∀ a, 8 * s.scanned ≤ a → (classifyAll s).rxBuf.read a = s.rxBuf.read a)

/-- R211, R212, R213, R27: the record of a scanned position after the classify step: the mirror, which categories are raised,
which dirty flags stand, and which counters rise. The categories are given by their bits: 0 SYM, 1 SIZE, 2 CRC, 3 RCRC,
4 WD. -/
def Obligations.ClassifiedPositionRecord : Prop :=
  ∀ (s : State) (p : Nat) (P : Position), p < s.scanned → s.pos? p = some P →
    ∃ (Q : Position) (isRaised : Nat → Bool), (classifyAll s).pos? p = some Q ∧
      isRaised 0 = ((classifyAll s).sc.cycErr == .sym) ∧
      isRaised 1 = ((classifyAll s).sc.cycErr == .size) ∧
      isRaised 2 = ((classifyAll s).sc.cycErr == .none &&
        ((classifyAll s).rxFrame p).b7.extractLsb' 0 4 != crc4 ((classifyAll s).rxFrame p) &&
        P.cliState == .inactive) ∧
      isRaised 3 = ((classifyAll s).sc.cycErr == .none && ((classifyAll s).rxFrame p).b7.getLsbD 4 &&
        P.srvState == .inactive) ∧
      isRaised 4 = ((classifyAll s).sc.cycErr == .none && ((classifyAll s).rxFrame p).b7.getLsbD 5) ∧
      (∀ k counter, (k, counter) ∈ [(0, SlotCounters.sym), (1, SlotCounters.size), (2, SlotCounters.crc),
          (3, SlotCounters.rcrc), (4, SlotCounters.wd)] →
        Q.status.getLsbD k = isRaised k ∧
        Q.dirty.getLsbD k = (isRaised k || (s.chan.discovering && P.dirty.getLsbD k)) ∧
        counter Q.sctr = if isRaised k && !P.dirty.getLsbD k then counter P.sctr + 1 else counter P.sctr) ∧
      Q.rxm = (if (classifyAll s).sc.cycErr = .none then unpackFields ((classifyAll s).rxFrame p) else P.rxm) ∧
      Q.tx = P.tx ∧ Q.srvState = P.srvState ∧ Q.srvCount = P.srvCount ∧ Q.cliState = P.cliState ∧
      Q.cliCountP = P.cliCountP

/-- R213, R27: outside the cycle-level counts, each channel counter of CRC, remote-CRC and watchdog errors (status bits 2, 3
and 4) rises, in both counter sets, by the number of scanned positions whose category is newly raised; after a good
capture no other channel counter moves. -/
def Obligations.NewErrorsCountOncePerPosition : Prop :=
  ∀ s : State, s.scanned ≤ s.positions.length →
    (∀ b counter k, (b, counter) ∈ [(2, Counters.rxcrc), (3, Counters.rcrc), (4, Counters.wd)] →
      k = ((List.range s.scanned).filter fun p => match s.pos? p, (classifyAll s).pos? p with
          | some P, some Q => Q.status.getLsbD b && !P.dirty.getLsbD b
          | _, _ => false).length →
      counter (classifyAll s).chan.ctr = counter s.chan.ctr + BitVec.ofNat 32 k ∧
      counter (classifyAll s).chan.sec = counter s.chan.sec + BitVec.ofNat 32 k) ∧
    ((classifyAll s).sc.cycErr = .none →
      ∀ counter ∈ [Counters.txund, Counters.rxovr, Counters.scantv, Counters.rxsize, Counters.rxsym],
        counter (classifyAll s).chan.ctr = counter s.chan.ctr ∧ counter (classifyAll s).chan.sec = counter s.chan.sec)

/-- R214, R346, R347: the events of a classify step, at most one per scanned position, in increasing position order: none
during discovery; a StatusUpdate where a category is newly raised; else a SenseUpdate where the frame is error-free and
its sensor byte differs from the mirror's. -/
def Obligations.ClassifyEvents : Prop :=
  ∀ s : State, s.scanned ≤ s.positions.length →
    (classifyAll s).evq = s.evq ++ (List.range s.scanned).flatMap fun p =>
      match s.pos? p, (classifyAll s).pos? p with
      | some P, some Q =>
        if s.chan.discovering = true then []
        else if [0, 1, 2, 3, 4].any fun k => Q.status.getLsbD k && !P.dirty.getLsbD k then
          [Event.statusUpdate p Q.status]
        else if (classifyAll s).sc.cycErr = .none ∧ crcVerify ((classifyAll s).rxFrame p) = true ∧
            ((classifyAll s).rxFrame p).b7.getLsbD 4 = false ∧ ((classifyAll s).rxFrame p).b7.getLsbD 5 = false ∧
            ((classifyAll s).rxFrame p).b0 ≠ P.rxm.sensor then
          [Event.senseUpdate p ((classifyAll s).rxFrame p).b0]
        else []
      | _, _ => []

/-- R210 to R215, R206, R182, R184: parts 1 to 5 of the classify step write the records of scanned positions, `CYCERR`, the
receive FIFO, `RXBUF`, the counters and the event queue only, so every other field and every position at `SCANCOUNT` and
above stay; what follows them, outside and inside discovery; and that a settle delay ends only when `now` has reached its
deadline. Before the deadline R182 and R184 only say that the settle step is not enabled; that SC, scheduled then, changes
nothing is the model's choice (log 6). -/
def Obligations.ClassifyContinues : Prop :=
  (∀ s : State,
    classifyAll s = { s with
      positions := (classifyAll s).positions
      sc := { s.sc with cycErr := (classifyAll s).sc.cycErr }
      rxFifo := (classifyAll s).rxFifo
      rxBuf := (classifyAll s).rxBuf
      chan := { s.chan with ctr := (classifyAll s).chan.ctr, sec := (classifyAll s).chan.sec }
      evq := (classifyAll s).evq } ∧
    (classifyAll s).positions.length = s.positions.length ∧
    ∀ p, s.scanned ≤ p → (classifyAll s).pos? p = s.pos? p) ∧
  (∀ (s : State) (pick : Nat), s.sc.phase = .classify →
    s.scanned ≤ s.positions.length → s.scanned ≤ s.sc.snap.length → s.scanned ≤ s.cap →
    (s.chan.discovering = false →
      scStep pick s = .next { classifyAll s with sc := { (classifyAll s).sc with phase := .hyst } }) ∧
    (s.chan.discovering = true → ∀ d after, (d = DStep.probe ∧ after = Phase.dSettle1) ∨
        (d = DStep.clean ∧ after = Phase.dSettle2) → s.sc.dstep = d →
      ((classifyAll s).sc.cycErr = .none → scStep pick s = .next { classifyAll s with
        sc := { (classifyAll s).sc with settleUntil := s.now + s.cfg.discoverySettleUs, phase := after } }) ∧
      ((classifyAll s).sc.cycErr ≠ .none →
        scStep pick s = .next (discoveryFail .generalLinkError (classifyAll s))))) ∧
  ∀ (s : State) (pick : Nat) (p q : Phase),
    (p = .dSettle1 ∧ q = .dEval) ∨ (p = .dSettle2 ∧ q = .dFinish) → s.sc.phase = p →
    scStep pick s = .next (if s.sc.settleUntil ≤ s.now then { s with sc := { s.sc with phase := q } } else s)

/-- R230 to R234: the health step. The sum leaves `TXUND` out and does not wrap; the block test comes first; a window
boundary, 1 000 000 µs after the last one (`WINDOW_US` of R7), unblocks when the sum is at most `TH_LOW`, clears the this-second counters and starts a window; nothing else
changes. -/
def Obligations.HealthStep : Prop :=
  ∀ (s : State) (pick sum : Nat) (blocked boundary : Bool), s.sc.phase = .hyst →
    sum = s.chan.sec.rxovr.toNat + s.chan.sec.scantv.toNat + s.chan.sec.rxsize.toNat + s.chan.sec.rxsym.toNat +
      s.chan.sec.wd.toNat + s.chan.sec.rxcrc.toNat + s.chan.sec.rcrc.toNat →
    blocked = (s.chan.opstate.getLsbD 1 || (decide (s.chan.thHigh ≠ 0) && decide (s.chan.thHigh.toNat ≤ sum))) →
    boundary = decide ((1000000 : Int) ≤ (s.now : Int) - (s.chan.wstart : Int)) →
    ∃ o : BitVec 3, scStep pick s = .next { s with
        chan := { s.chan with
          opstate := o
          wstart := if boundary then s.now else s.chan.wstart
          sec := if boundary then ⟨0, 0, 0, 0, 0, 0, 0, 0⟩ else s.chan.sec }
        sc := { s.sc with phase := .sched } } ∧
      o.getLsbD 0 = s.chan.opstate.getLsbD 0 ∧ o.getLsbD 2 = s.chan.opstate.getLsbD 2 ∧
      o.getLsbD 1 = (blocked && !(boundary && decide (sum ≤ s.chan.thLow.toNat)))

/-- R216: the SCHED step; an exact deadline is no violation, and a violation counts once and restarts from now. -/
def Obligations.ScheduleStep : Prop :=
  ∀ (s : State) (pick : Nat), s.sc.phase = .sched →
    scStep pick s = .next (
      if s.chan.nextstart < s.now then { s with
        chan := { s.chan with
          nextstart := s.now
          ctr := { s.chan.ctr with scantv := s.chan.ctr.scantv + 1 }
          sec := { s.chan.sec with scantv := s.chan.sec.scantv + 1 } }
        sc := { s.sc with phase := .wait } }
      else { s with sc := { s.sc with phase := .wait } })

/-! ## Discovery -/

/-- R181: D_START resets every position, marks all dirty with the server CRC inverted, and begins the probe cycle over
all `CAP` positions; the channel's other registers, its counters among them, stay. -/
def Obligations.DiscoveryStart : Prop :=
  ∀ (s : State) (pick : Nat), s.sc.phase = .dStart → s.cfg.wellFormed = true →
    scStep pick s = .next { s with
      positions := List.replicate s.cap { Position.reset with
        tx := { TxRegs.reset with invSrv := true, txDirty := true }, dirty := 0b11111 }
      txBuf := []
      rxBuf := []
      chan := { s.chan with nsats := 0, cliCount := 0, discovering := true, scancount := BitVec.ofNat 9 s.cap }
      sc := { s.sc with dstep := .probe, pending := pendingReads s.cap, phase := .build } }

/-- R183, R189: D_EVAL with one record per position. The guard position's flag fails discovery whatever its cause;
otherwise `NSATS` becomes the first position whose mirror has no remote-CRC error, and the cleanup cycle begins with
every server CRC plain. -/
def Obligations.DiscoveryEvaluation : Prop :=
  ∀ (s : State) (pick : Nat) (guard : Position), s.sc.phase = .dEval → s.cfg.wellFormed = true →
    s.positions.length = s.cap → s.pos? s.cfg.maxDevices = some guard →
    (guard.rxm.remoteCrcError = true → scStep pick s = .next (discoveryFail .excessiveDevices s)) ∧
    (guard.rxm.remoteCrcError = false → ∃ n : Byte, n.toNat ≤ s.cfg.maxDevices ∧
      (∀ p P, p < n.toNat → s.pos? p = some P → P.rxm.remoteCrcError = true) ∧
      (∀ P, s.pos? n.toNat = some P → P.rxm.remoteCrcError = false) ∧
      scStep pick s = .next { s with
        positions := s.positions.map fun P => { P with tx := { P.tx with invSrv := false, txDirty := true } }
        chan := { s.chan with
          nsats := n
          cliCount :=
            if s.cfg.clientCountdownShared = true ∧ s.chan.cliCount ≠ 0 then s.chan.cliCount - 1 else s.chan.cliCount }
        sc := { s.sc with dstep := .clean, pending := pendingReads s.scanned, phase := .build } })

/-- R185, R38: a failed discovery resets every position and both buffers, leaves no live slot, stops SC, and answers the
waiting host; the counters and the log of trains stay. -/
def Obligations.DiscoveryFailure : Prop :=
  ∀ (s : State) (code : ResultCode) (h : Nat), s.sc.discReq = some h →
    discoveryFail code s = { s with
      positions := List.replicate s.cap .reset
      txBuf := []
      rxBuf := []
      chan := { s.chan with nsats := 0, scancount := 0, discovering := false }
      sc := { s.sc with dstep := .none, phase := .stopped, discReq := none }
      responses := s.responses ++ [⟨h, code, []⟩] }

/-- R186: D_FINISH clears the dirty flags of the live slots, resets every other position and its frames, scans the live
slots from then on, stops SC and answers OK. -/
def Obligations.DiscoveryFinish : Prop :=
  ∀ (s : State) (pick h : Nat), s.sc.phase = .dFinish → s.sc.discReq = some h →
    ∃ (ps : List Position) (tx rx : Memory), scStep pick s = .next { s with
        positions := ps
        txBuf := tx
        rxBuf := rx
        chan := { s.chan with scancount := BitVec.ofNat 9 s.chan.nsats.toNat, discovering := false }
        sc := { s.sc with dstep := .none, phase := .stopped, discReq := none }
        responses := s.responses ++ [⟨h, .ok, []⟩] } ∧
      ps.length = s.positions.length ∧
      (∀ p P, s.pos? p = some P → ps[p]? = some (if p < s.chan.nsats.toNat then { P with dirty := 0 } else .reset)) ∧
      ∀ a, (tx.read a = if a < 8 * s.chan.nsats.toNat then s.txBuf.read a else 0) ∧
        (rx.read a = if a < 8 * s.chan.nsats.toNat then s.rxBuf.read a else 0)

/-! ## Reset and the whole machine -/

/-- R37, R371: the reset value of every field, for every configuration. -/
def Obligations.ResetValues : Prop :=
  ∀ cfg : Config, ∀ s : State, s = State.resetWith cfg →
    s.cfg = cfg ∧ s.chan.admin = false ∧ s.chan.opstate = 0b001 ∧ s.chan.thHigh = 0 ∧ s.chan.thLow = 0 ∧
    s.chan.nsats = 0 ∧ s.chan.scancount = 0 ∧ s.chan.discovering = false ∧ s.chan.wstart = 0 ∧ s.chan.nextstart = 0 ∧
    s.chan.cliCount = 0 ∧ (∀ c, s.chan.ctr.get c = 0 ∧ s.chan.sec.get c = 0) ∧
    s.positions.length = cfg.cap ∧ (∀ p P, s.pos? p = some P → P = {
        tx := ⟨⟨0, 0, 0, 0⟩, ⟨0, 0, 0, 0⟩, false, false, false, false, false⟩
        rxm := ⟨0, ⟨0, 0, 0, 0⟩, ⟨0, 0, 0, 0⟩, false, false, false, false, false, 0⟩
        status := 0, dirty := 0, srvState := .inactive, srvCount := 0, cliState := .inactive, cliCountP := 0
        sctr := ⟨0, 0, 0, 0, 0⟩ }) ∧
    (∀ a, s.txBuf.read a = 0 ∧ s.rxBuf.read a = 0) ∧
    s.sc.phase = .stopped ∧ s.sc.dstep = .none ∧ s.sc.pending = [] ∧ s.sc.capture = [] ∧ s.sc.cycErr = .none ∧
    s.sc.settleUntil = 0 ∧ s.sc.discReq = none ∧ s.sc.snap = List.replicate cfg.cap ⟨⟨0, 0, 0, 0⟩, ⟨0, 0, 0, 0⟩, false, false, false, false⟩ ∧
    s.rxFifo = [] ∧ s.txLog = [] ∧ s.evq = []

/-- R36 at reset, for every admitted configuration; the reset state is also quiescent (R361). -/
def Obligations.ResetMeetsInvariant : Prop :=
  ∀ cfg : Config, cfg.wellFormed = true → (State.resetWith cfg).Inv ∧ (State.resetWith cfg).quiescent = true

/-- R36, R206, R60: every step of every agent keeps the invariant. -/
def Obligations.EveryStepKeepsInvariant : Prop :=
  ∀ s t : State, s.Inv → step s = .next t → t.Inv

/-- R360, R340: the block has no run-time fault and refuses no input: with the invariant every step answers a next state. For
an agent with no enabled step, which R360 calls stuck, this rests on the model's choice that its schedule entry changes
nothing (log 6). -/
def Obligations.NoRunTimeFault : Prop :=
  ∀ s : State, s.Inv → ∃ t, step s = .next t

/-- R6, R7, R32: a step never moves time back, never changes the configuration, and never takes back what the block
has transmitted or answered. -/
def Obligations.TimeConfigurationAndLogs : Prop :=
  ∀ s t : State, step s = .next t →
    s.now ≤ t.now ∧ t.cfg = s.cfg ∧ s.txLog <+: t.txLog ∧ s.responses <+: t.responses

/-- R162: the transmit-underrun counters stay at 0. -/
def Obligations.UnderrunCountersStayZero : Prop :=
  ∀ s t : State, s.chan.ctr.txund = 0 ∧ s.chan.sec.txund = 0 → step s = .next t →
    t.chan.ctr.txund = 0 ∧ t.chan.sec.txund = 0

/-- R349: no step makes an event while a discovery runs; the queue only loses its head to a host. -/
def Obligations.NoEventsDuringDiscovery : Prop :=
  ∀ s t : State, s.chan.discovering = true → step s = .next t → t.evq = s.evq ∨ t.evq = s.evq.tail

/-- R294, R181, R183, R185: only a step of SC, and of it only a discovery step, changes the number of live slots: the next entry
of the schedule is SC's, and SC is in D_START, in D_EVAL, or in the CLASSIFY of a discovery cycle. -/
def Obligations.OnlyDiscoveryChangesSlotCount : Prop :=
  ∀ s t : State, step s = .next t → t.chan.nsats ≠ s.chan.nsats →
    (∃ pick, (nextInput s).1.move = .sc pick) ∧
    (s.sc.phase = .dStart ∨ s.sc.phase = .dEval ∨ (s.sc.phase = .classify ∧ s.chan.discovering = true))

end Statements
end

