-- ==== Sys2Proof/Laws/Operands.lean ====
section
/-! SUPPORT. The bits of response words, the bits of the flag registers, the quads, and what a gated command can answer. -/

namespace Sys2Proof.Machine

theorem bitAt_getLsbD (b : Bool) (i j : Nat) :
    (bitAt b i).getLsbD j = (decide (j < 32) && decide (j = i) && b) := by
  have h : ∀ k, (BitVec.ofNat 32 b.toNat).getLsbD k = (decide (k = 0) && b) := by
    intro k; cases b <;> simp [BitVec.getLsbD_one]
  simp only [bitAt, BitVec.getLsbD_shiftLeft, h]
  by_cases h1 : j < i
  · simp [h1, show j ≠ i by omega]
  · by_cases h2 : j = i
    · subst h2; simp
    · simp [h1, h2, show ¬ j - i = 0 by omega]

theorem fieldAt_getLsbD {w : Nat} (v : BitVec w) (i j : Nat) :
    (fieldAt v i).getLsbD j = (decide (j < 32) && decide (i ≤ j) && v.getLsbD (j - i)) := by
  simp only [fieldAt, BitVec.getLsbD_shiftLeft, BitVec.getLsbD_setWidth]
  by_cases h1 : j < 32 <;> by_cases h2 : i ≤ j
  · simp [h1, h2, show j - i < 32 by omega]
  · simp [h1, h2, show j < i by omega]
  · simp [h1]
  · simp [h1]

/-- A flag register after a write of bit `i`. -/
theorem setBit_getLsbD {w : Nat} (x : BitVec w) (i j : Nat) (b : Bool) (h : i < w) :
    (setBit x i b).getLsbD j = if j = i then b else x.getLsbD j := by
  have hs : (1#w <<< i).getLsbD j = decide (j = i) := by
    rw [BitVec.getLsbD_shiftLeft, BitVec.getLsbD_one]
    by_cases h1 : j = i
    · subst h1; simp [h]; omega
    · by_cases h2 : j < i
      · simp [h1, h2]
      · simp [h1, show ¬ j - i = 0 by omega]
  cases b
  · simp only [setBit, Bool.false_eq_true, if_false, BitVec.getLsbD_and, BitVec.getLsbD_not, hs]
    by_cases h1 : j = i
    · simp [h1]
    · by_cases hj : j < w
      · simp [h1, hj]
      · simp [h1, hj, BitVec.getLsbD_of_ge x j (by omega)]
  · simp only [setBit, if_true, BitVec.getLsbD_or, hs]
    by_cases h1 : j = i <;> simp [h1]

theorem Quad.get_set {α : Type} (q : Quad α) (i k : BitVec 2) (v : α) :
    (q.set i v).get k = if k = i then v else q.get k := by
  have hi : i = 0 ∨ i = 1 ∨ i = 2 ∨ i = 3 := by revert i; decide
  have hk : k = 0 ∨ k = 1 ∨ k = 2 ∨ k = 3 := by revert k; decide
  rcases hi with rfl | rfl | rfl | rfl <;> rcases hk with rfl | rfl | rfl | rfl <;> rfl

/-- The bitmap of a set of categories holds exactly those categories. -/
@[simp] theorem hasCat_ofCats (f : SlotCat → Bool) (c : SlotCat) : hasCat (ofCats f) c = f c := by
  cases c <;> simp only [hasCat, ofCats, SlotCat.bit, BitVec.getLsbD_append, BitVec.getLsbD_ofBool] <;> simp

@[simp] theorem hasCat_zero (c : SlotCat) : hasCat 0 c = false := by simp [hasCat]

/-- What a gated channel command can answer: WRONG_STATE with nothing changed, or its effect, which needs the
precondition and no discovery (R280). -/
theorem channelCommand_cases (pre : Bool) (s t : State) :
    channelCommand pre s t = .next (s.reject .wrongState) ∨
      (channelCommand pre s t = .next t ∧ s.chan.discovering = false ∧ pre = true) := by
  unfold channelCommand
  split
  · exact .inl rfl
  · split
    · exact .inr ⟨rfl, by simpa using ‹¬ s.chan.discovering = true›, ‹_›⟩
    · exact .inl rfl

/-- What a command with a slot address can answer: WRONG_STATE or NO_SUCH_SLOT with nothing changed, its effect on the
record of a live slot, or the fault of an array that lacks the slot (R280). -/
theorem slotCommand_cases (a : Byte) (s : State) (effect : Position → Result) :
    slotCommand a s effect = .next (s.reject .wrongState) ∨
    slotCommand a s effect = .next (s.reject .noSuchSlot) ∨
    (∃ P, slotCommand a s effect = effect P ∧ s.pos? a.toNat = some P ∧ s.chan.discovering = false ∧
      a.toNat < s.chan.nsats.toNat) ∨
    (slotCommand a s effect = .fault (.noSuchPosition a.toNat) ∧ s.pos? a.toNat = none ∧
      a.toNat < s.chan.nsats.toNat) := by
  unfold slotCommand
  split
  · exact .inl rfl
  next hd =>
    split
    · exact .inr (.inl rfl)
    next hn =>
      have hn' : a.toNat < s.chan.nsats.toNat := Nat.lt_of_not_le hn
      split
      next P hP => exact .inr (.inr (.inl ⟨P, rfl, hP, by simpa using hd, hn'⟩))
      next hP => exact .inr (.inr (.inr ⟨rfl, hP, hn'⟩))

end Sys2Proof.Machine
end

