-- ==== Sys2Proof/Laws/Memory.lean ====
section
/-! SUPPORT. The frame buffers: a read after a write, and that every operation keeps the canonical form. -/

namespace Sys2Proof.Machine

@[simp] theorem Memory.unlisted_eq : Memory.unlisted = 0#8 := rfl

@[simp] theorem Memory.read_nil (a : Nat) : Memory.read [] a = 0#8 := rfl

theorem Memory.read_cons (c : Host.Cell) (m : Memory) (a : Nat) :
    Memory.read (c :: m) a = if c.1 = a then c.2 else Memory.read m a := rfl

theorem Memory.wf_nil : Memory.wf [] := by decide

theorem Memory.wf_tail {c : Host.Cell} {m : Memory} (h : Memory.wf (c :: m)) : m.wf :=
  ⟨(List.pairwise_cons.1 h.1).2, fun x hx => h.2 x (List.mem_cons_of_mem _ hx)⟩

theorem Memory.read_eq_zero {m : Memory} {a : Nat} (h : ∀ c ∈ m, c.1 ≠ a) : m.read a = 0#8 := by
  induction m with
  | nil => rfl
  | cons c m ih =>
    rw [Memory.read_cons, if_neg (h c (by simp))]
    exact ih fun x hx => h x (List.mem_cons_of_mem _ hx)

/-- Below the first listed address everything reads as after reset. -/
theorem Memory.read_lt {c : Host.Cell} {m : Memory} (h : Memory.wf (c :: m)) {a : Nat} (ha : a < c.1) :
    Memory.read (c :: m) a = 0#8 := by
  refine Memory.read_eq_zero fun x hx => ?_
  rcases List.mem_cons.1 hx with rfl | hx
  · omega
  · have := (List.pairwise_cons.1 h.1).1 x hx
    omega

/-- The first listed address does not stand in the rest. -/
theorem Memory.read_tail {c : Host.Cell} {m : Memory} (h : Memory.wf (c :: m)) : Memory.read m c.1 = 0#8 :=
  Memory.read_eq_zero fun x hx => Nat.ne_of_gt ((List.pairwise_cons.1 h.1).1 x hx)

/-- A read after a write: the byte written at its address, and every other byte as before. -/
theorem Memory.read_write {m : Memory} (h : m.wf) (a b : Nat) (v : Byte) :
    (m.write a v).read b = if b = a then v else m.read b := by
  induction m with
  | nil =>
    rw [Memory.write, Memory.unlisted_eq]
    by_cases hv : v = 0#8
    · subst hv; simp
    · rw [if_neg hv, Memory.read_cons]
      simp only [eq_comm (a := a), Memory.read_nil]
  | cons c m ih =>
    have hm := Memory.wf_tail h
    rw [Memory.write, Memory.unlisted_eq]
    split
    next hac =>
      by_cases hv : v = 0#8
      · subst hv
        rw [if_pos rfl]
        split
        next hb => subst hb; exact Memory.read_lt h hac
        · rfl
      · rw [if_neg hv, Memory.read_cons]
        simp only [eq_comm (a := a)]
    next hac =>
      split
      next hc =>
        subst hc
        by_cases hv : v = 0#8
        · subst hv
          rw [if_pos rfl]
          split
          next hb => subst hb; exact Memory.read_tail h
          next hb => rw [Memory.read_cons, if_neg (Ne.symm hb)]
        · rw [if_neg hv, Memory.read_cons, Memory.read_cons]
          by_cases hb : b = c.1
          · simp [hb]
          · simp [hb, Ne.symm hb]
      next hc =>
        rw [Memory.read_cons, ih hm, Memory.read_cons]
        by_cases hcb : c.1 = b
        · subst hcb; simp [Ne.symm hc]
        · simp [hcb]

theorem Memory.mem_write {m : Memory} {a : Nat} {v : Byte} {c : Host.Cell} (h : c ∈ m.write a v) :
    c ∈ m ∨ (c = (a, v) ∧ v ≠ 0) := by
  induction m with
  | nil =>
    rw [Memory.write] at h
    split at h
    · simp at h
    · simp_all [Memory.unlisted]
  | cons d m ih =>
    rw [Memory.write] at h
    split at h
    · split at h
      · exact .inl h
      next hv => rcases List.mem_cons.1 h with h | h
                 · exact .inr ⟨h, hv⟩
                 · exact .inl h
    · split at h
      · split at h
        · exact .inl (List.mem_cons_of_mem _ h)
        next hv => rcases List.mem_cons.1 h with h | h
                   · exact .inr ⟨h, hv⟩
                   · exact .inl (List.mem_cons_of_mem _ h)
      · rcases List.mem_cons.1 h with h | h
        · exact .inl (h ▸ List.mem_cons_self)
        · rcases ih h with h | h
          · exact .inl (List.mem_cons_of_mem _ h)
          · exact .inr h

/-- A write keeps the canonical form. -/
theorem Memory.wf_write {m : Memory} (h : m.wf) (a : Nat) (v : Byte) : (m.write a v).wf := by
  refine ⟨?_, fun c hc => ?_⟩
  · induction m with
    | nil => rw [Memory.write]; split <;> simp
    | cons d m ih =>
      have hd := (List.pairwise_cons.1 h.1).1
      have hm := (List.pairwise_cons.1 h.1).2
      rw [Memory.write]
      split
      next had =>
        split
        · exact h.1
        · refine List.pairwise_cons.2 ⟨fun x hx => ?_, h.1⟩
          rcases List.mem_cons.1 hx with rfl | hx
          · exact had
          · exact Nat.lt_trans had (hd x hx)
      next had =>
        split
        next hc =>
          split
          · exact hm
          · exact List.pairwise_cons.2 ⟨fun x hx => hc ▸ hd x hx, hm⟩
        next hc =>
          refine List.pairwise_cons.2 ⟨fun x hx => ?_, ih (Memory.wf_tail h)⟩
          rcases Memory.mem_write hx with hx | ⟨rfl, -⟩
          · exact hd x hx
          · show d.1 < a
            omega
  · rcases Memory.mem_write hc with hc | ⟨rfl, hv⟩
    · exact h.2 c hc
    · exact hv

theorem Memory.wf_keepBelow {m : Memory} (h : m.wf) (l : Nat) : (m.keepBelow l).wf :=
  ⟨h.1.filter _, fun c hc => h.2 c (List.mem_filter.1 hc).1⟩

/-- Below the limit every byte is kept; at the limit and above it reads as after reset. -/
theorem Memory.read_keepBelow (m : Memory) (l a : Nat) :
    (m.keepBelow l).read a = if a < l then m.read a else 0 := by
  split
  next h =>
    induction m with
    | nil => rfl
    | cons c m ih =>
      simp only [Memory.keepBelow] at ih ⊢
      rw [List.filter_cons]
      split
      · rw [Memory.read, Memory.read, ih]
      next hc =>
        rw [ih, Memory.read, if_neg]
        rintro rfl
        exact hc (by simpa using h)
  next h =>
    refine Memory.read_eq_zero fun c hc => ?_
    have := (List.mem_filter.1 hc).2
    simp at this
    omega

theorem Memory.wf_writeFrame {m : Memory} (h : m.wf) (p : Nat) (f : Frame) : (m.writeFrame p f).wf := by
  simp only [Memory.writeFrame]
  repeat first | exact h | apply Memory.wf_write

/-- Writing a frame writes its 8 bytes and leaves every other byte as it was. -/
theorem Memory.read_writeFrame {m : Memory} (h : m.wf) (p : Nat) (f : Frame) (a : Nat) :
    (m.writeFrame p f).read a =
      if 8 * p ≤ a ∧ a < 8 * p + 8 then f.bytes.getD (a - 8 * p) 0 else m.read a := by
  have h0 := h
  simp only [Memory.writeFrame]
  rw [Memory.read_write (by repeat first | exact h | apply Memory.wf_write),
    Memory.read_write (by repeat first | exact h | apply Memory.wf_write),
    Memory.read_write (by repeat first | exact h | apply Memory.wf_write),
    Memory.read_write (by repeat first | exact h | apply Memory.wf_write),
    Memory.read_write (by repeat first | exact h | apply Memory.wf_write),
    Memory.read_write (by repeat first | exact h | apply Memory.wf_write),
    Memory.read_write (by repeat first | exact h | apply Memory.wf_write),
    Memory.read_write h]
  by_cases hin : 8 * p ≤ a ∧ a < 8 * p + 8
  · obtain ⟨k, hk, rfl⟩ : ∃ k, k < 8 ∧ a = 8 * p + k := ⟨a - 8 * p, by omega, by omega⟩
    rw [if_pos hin]
    interval_cases k <;> simp [Frame.bytes]
  · rw [if_neg hin]
    repeat rw [if_neg (by omega)]

/-- A frame reads back as written. -/
theorem Memory.frame_writeFrame {m : Memory} (h : m.wf) (p q : Nat) (f : Frame) :
    (m.writeFrame p f).frame q = if q = p then f else m.frame q := by
  by_cases hq : q = p
  · subst hq
    simp [Memory.frame, Memory.read_writeFrame h, Frame.bytes]
  · rw [if_neg hq]
    simp only [Memory.frame, Memory.read_writeFrame h]
    congr 1 <;> rw [if_neg (by omega)]

end Sys2Proof.Machine
end

