-- ==== Sys2Proof/Laws/Phy.lean ====
section
/-! SUPPORT. The PHY: what one pulse carries, when a capture is good, and the bits of the bytes it gives. -/

namespace Sys2Proof.Machine

/-- Under an admitted configuration a sent pulse carries its bit (R8, R170). -/
theorem pulseBit_pulseOf {cfg : Config} (h : cfg.wellFormed = true) (d : Bool) :
    pulseBit cfg (pulseOf cfg d) = some d := by
  simp only [Config.wellFormed, Config.oneOk, Config.zeroOk, Bool.and_eq_true, decide_eq_true_eq,
    Bool.not_eq_true', Bool.and_eq_false_iff, decide_eq_false_iff_not] at h
  obtain ⟨⟨⟨⟨_, ⟨⟨h1, h2⟩, h3⟩, h4⟩, ⟨⟨⟨h5, h6⟩, h7⟩, h8⟩, h9⟩, _⟩, _⟩ := h
  cases d
  · simp only [pulseOf, pulseBit, Bool.false_eq_true, if_false]
    rw [if_pos ⟨h8, h9⟩, if_neg (by omega), if_pos ⟨h5, h6⟩]
  · simp only [pulseOf, pulseBit, if_true]
    rw [if_pos ⟨h3, h4⟩, if_pos ⟨h1, h2⟩]

/-- A pulse that is no symbol error carries 1 exactly when its high time lies in the long window (R164, R165). -/
theorem pulseBit_eq (cfg : Config) (q : Pulse) :
    pulseBit cfg q =
      if ((cfg.lhMin ≤ q.dur0 ∧ q.dur0 ≤ cfg.lhMax) ∨ (cfg.shMin ≤ q.dur0 ∧ q.dur0 ≤ cfg.shMax)) ∧
          cfg.spMin ≤ q.dur0 + q.dur1 ∧ q.dur0 + q.dur1 ≤ cfg.spMax then
        some (decide (cfg.lhMin ≤ q.dur0 ∧ q.dur0 ≤ cfg.lhMax))
      else none := by
  simp only [pulseBit]
  by_cases h1 : cfg.lhMin ≤ q.dur0 ∧ q.dur0 ≤ cfg.lhMax <;>
    by_cases h2 : cfg.shMin ≤ q.dur0 ∧ q.dur0 ≤ cfg.shMax <;>
    by_cases h3 : cfg.spMin ≤ q.dur0 + q.dur1 ∧ q.dur0 + q.dur1 ≤ cfg.spMax <;> simp [h1, h2, h3]

/-- A capture has bits exactly when every pulse carries one, and then one per pulse (R166). -/
theorem captureBits_eq_some {cfg : Config} {ps : List Pulse} {ds : List Bool} :
    captureBits cfg ps = some ds ↔ ps.map (pulseBit cfg) = ds.map some := by
  induction ps generalizing ds with
  | nil => cases ds <;> simp [captureBits]
  | cons q qs ih =>
    rw [captureBits]
    cases hq : pulseBit cfg q <;> cases hc : captureBits cfg qs <;> cases ds <;>
      simp [hq, hc, ← ih]

/-- One bad pulse anywhere leaves no bits (R166). -/
theorem captureBits_eq_none {cfg : Config} {ps : List Pulse} :
    captureBits cfg ps = none ↔ ∃ q ∈ ps, pulseBit cfg q = none := by
  induction ps with
  | nil => simp [captureBits]
  | cons q qs ih =>
    rw [captureBits]
    cases hq : pulseBit cfg q <;> cases hc : captureBits cfg qs <;> simp [hq, hc, ← ih]

@[simp] theorem bitsMsb_length (b : Byte) : (bitsMsb b).length = 8 := rfl

theorem bitsOfBytes_length (bytes : List Byte) : (bitsOfBytes bytes).length = 8 * bytes.length := by
  induction bytes with
  | nil => rfl
  | cons b bs ih =>
    rw [bitsOfBytes, List.flatMap_cons, List.length_append, ← bitsOfBytes, ih, bitsMsb_length, List.length_cons]
    omega

/-- A whole byte sequence is sent with one pulse per bit and no underrun (R161, R162). -/
theorem phyEncode_all (cfg : Config) (bytes : List Byte) :
    phyEncode cfg bytes (8 * bytes.length) = ((bitsOfBytes bytes).map (pulseOf cfg), false) := by
  simp [phyEncode, bitsOfBytes_length, List.take_of_length_le]

/-- The bits of a byte sequence: bit `k` of byte `j` is sent in place `8j + (7 − k)` (R62, R63). -/
theorem bitsOfBytes_getElem? (bytes : List Byte) (j k : Nat) (hk : k < 8) :
    (bitsOfBytes bytes)[8 * j + (7 - k)]? = bytes[j]?.map fun b => b.getLsbD k := by
  induction bytes generalizing j with
  | nil => simp [bitsOfBytes]
  | cons b bs ih =>
    rw [bitsOfBytes, List.flatMap_cons, ← bitsOfBytes]
    cases j with
    | zero =>
      rw [List.getElem?_append_left (by simp; omega)]
      interval_cases k <;> simp [bitsMsb]
    | succ j =>
      rw [List.getElem?_append_right (by simp; omega), bitsMsb_length,
        show 8 * (j + 1) + (7 - k) - 8 = 8 * j + (7 - k) by omega, ih, List.getElem?_cons_succ]

theorem byteOfBits_bitsMsb (b : Byte) :
    byteOfBits (b.getLsbD 7) (b.getLsbD 6) (b.getLsbD 5) (b.getLsbD 4) (b.getLsbD 3) (b.getLsbD 2) (b.getLsbD 1)
      (b.getLsbD 0) = b := by
  apply BitVec.eq_of_getLsbD_eq
  intro i hi
  simp only [byteOfBits, BitVec.getLsbD_append, BitVec.getLsbD_ofBool]
  interval_cases i <;> simp

/-- Bytes read back from their bits. -/
theorem bytesOfBits_bitsOfBytes (bytes : List Byte) : bytesOfBits (bitsOfBytes bytes) = bytes := by
  induction bytes with
  | nil => rfl
  | cons b bs ih =>
    show byteOfBits _ _ _ _ _ _ _ _ :: bytesOfBits (bitsOfBytes bs) = _
    rw [byteOfBits_bitsMsb, ih]

theorem bytesOfBits_length (ds : List Bool) : (bytesOfBits ds).length = ds.length / 8 := by
  induction ds using bytesOfBits.induct with
  | case1 d7 d6 d5 d4 d3 d2 d1 d0 ds ih =>
    rw [bytesOfBits, List.length_cons, ih]
    simp only [List.length_cons]
    omega
  | case2 ds h =>
    have : ds.length < 8 := by
      rcases ds with _ | ⟨a, _ | ⟨b, _ | ⟨c, _ | ⟨d, _ | ⟨e, _ | ⟨f, _ | ⟨g, _ | ⟨i, ds⟩⟩⟩⟩⟩⟩⟩⟩
      all_goals first
        | exact absurd rfl (h _ _ _ _ _ _ _ _ _)
        | simp
    rw [bytesOfBits, Nat.div_eq_of_lt this]
    · rfl
    · exact h

/-- Bit `k` of byte `j` is the bit in place `8j + (7 − k)` (R167). -/
theorem bytesOfBits_getLsbD (ds : List Bool) (j k : Nat) (hk : k < 8) (hj : j < (bytesOfBits ds).length) :
    ds[8 * j + (7 - k)]? = some (((bytesOfBits ds).getD j 0).getLsbD k) := by
  induction ds using bytesOfBits.induct generalizing j with
  | case1 d7 d6 d5 d4 d3 d2 d1 d0 ds ih =>
    rw [bytesOfBits] at hj ⊢
    cases j with
    | zero =>
      simp only [List.getD_cons_zero, byteOfBits, BitVec.getLsbD_append, BitVec.getLsbD_ofBool]
      interval_cases k <;> simp
    | succ j =>
      rw [show 8 * (j + 1) + (7 - k) = (8 * j + (7 - k)) + 8 by omega, List.getD_cons_succ]
      exact ih j (by simpa using hj)
  | case2 ds h =>
    rw [bytesOfBits] at hj
    · simp at hj
    · exact h

end Sys2Proof.Machine
end

