-- ==== Sys2Proof/Laws/State.lean ====
section
/-! SUPPORT. What each named update of the state leaves in each field: one lemma per field per update. -/

namespace Sys2Proof.Machine

variable (s : State)

/-! ### `setPos` -/

@[simp] theorem State.setPos_cfg (p : Nat) (P : Position) : (s.setPos p P).cfg = s.cfg := rfl
@[simp] theorem State.setPos_now (p : Nat) (P : Position) : (s.setPos p P).now = s.now := rfl
@[simp] theorem State.setPos_chan (p : Nat) (P : Position) : (s.setPos p P).chan = s.chan := rfl
@[simp] theorem State.setPos_positions (p : Nat) (P : Position) : (s.setPos p P).positions = s.positions.set p P := rfl
@[simp] theorem State.setPos_txBuf (p : Nat) (P : Position) : (s.setPos p P).txBuf = s.txBuf := rfl
@[simp] theorem State.setPos_rxBuf (p : Nat) (P : Position) : (s.setPos p P).rxBuf = s.rxBuf := rfl
@[simp] theorem State.setPos_sc (p : Nat) (P : Position) : (s.setPos p P).sc = s.sc := rfl
@[simp] theorem State.setPos_rxFifo (p : Nat) (P : Position) : (s.setPos p P).rxFifo = s.rxFifo := rfl
@[simp] theorem State.setPos_txLog (p : Nat) (P : Position) : (s.setPos p P).txLog = s.txLog := rfl
@[simp] theorem State.setPos_evq (p : Nat) (P : Position) : (s.setPos p P).evq = s.evq := rfl
@[simp] theorem State.setPos_responses (p : Nat) (P : Position) : (s.setPos p P).responses = s.responses := rfl
@[simp] theorem State.setPos_host (p : Nat) (P : Position) : (s.setPos p P).host = s.host := rfl
@[simp] theorem State.setPos_inputs (p : Nat) (P : Position) : (s.setPos p P).inputs = s.inputs := rfl
@[simp] theorem State.setPos_draws (p : Nat) (P : Position) : (s.setPos p P).draws = s.draws := rfl

/-! ### `respond` -/

@[simp] theorem State.respond_cfg (code : ResultCode) (ws : List Word) : (s.respond code ws).cfg = s.cfg := rfl
@[simp] theorem State.respond_now (code : ResultCode) (ws : List Word) : (s.respond code ws).now = s.now := rfl
@[simp] theorem State.respond_chan (code : ResultCode) (ws : List Word) : (s.respond code ws).chan = s.chan := rfl
@[simp] theorem State.respond_positions (code : ResultCode) (ws : List Word) : (s.respond code ws).positions = s.positions := rfl
@[simp] theorem State.respond_txBuf (code : ResultCode) (ws : List Word) : (s.respond code ws).txBuf = s.txBuf := rfl
@[simp] theorem State.respond_rxBuf (code : ResultCode) (ws : List Word) : (s.respond code ws).rxBuf = s.rxBuf := rfl
@[simp] theorem State.respond_sc (code : ResultCode) (ws : List Word) : (s.respond code ws).sc = s.sc := rfl
@[simp] theorem State.respond_rxFifo (code : ResultCode) (ws : List Word) : (s.respond code ws).rxFifo = s.rxFifo := rfl
@[simp] theorem State.respond_txLog (code : ResultCode) (ws : List Word) : (s.respond code ws).txLog = s.txLog := rfl
@[simp] theorem State.respond_evq (code : ResultCode) (ws : List Word) : (s.respond code ws).evq = s.evq := rfl
@[simp] theorem State.respond_responses (code : ResultCode) (ws : List Word) : (s.respond code ws).responses = s.responses ++ [⟨s.host, code, ws⟩] := rfl
@[simp] theorem State.respond_host (code : ResultCode) (ws : List Word) : (s.respond code ws).host = s.host := rfl
@[simp] theorem State.respond_inputs (code : ResultCode) (ws : List Word) : (s.respond code ws).inputs = s.inputs := rfl
@[simp] theorem State.respond_draws (code : ResultCode) (ws : List Word) : (s.respond code ws).draws = s.draws := rfl

/-! ### `reject` -/

@[simp] theorem State.reject_cfg (code : ResultCode) : (s.reject code).cfg = s.cfg := rfl
@[simp] theorem State.reject_now (code : ResultCode) : (s.reject code).now = s.now := rfl
@[simp] theorem State.reject_chan (code : ResultCode) : (s.reject code).chan = s.chan := rfl
@[simp] theorem State.reject_positions (code : ResultCode) : (s.reject code).positions = s.positions := rfl
@[simp] theorem State.reject_txBuf (code : ResultCode) : (s.reject code).txBuf = s.txBuf := rfl
@[simp] theorem State.reject_rxBuf (code : ResultCode) : (s.reject code).rxBuf = s.rxBuf := rfl
@[simp] theorem State.reject_sc (code : ResultCode) : (s.reject code).sc = s.sc := rfl
@[simp] theorem State.reject_rxFifo (code : ResultCode) : (s.reject code).rxFifo = s.rxFifo := rfl
@[simp] theorem State.reject_txLog (code : ResultCode) : (s.reject code).txLog = s.txLog := rfl
@[simp] theorem State.reject_evq (code : ResultCode) : (s.reject code).evq = s.evq := rfl
@[simp] theorem State.reject_responses (code : ResultCode) : (s.reject code).responses = s.responses ++ [⟨s.host, code, []⟩] := rfl
@[simp] theorem State.reject_host (code : ResultCode) : (s.reject code).host = s.host := rfl
@[simp] theorem State.reject_inputs (code : ResultCode) : (s.reject code).inputs = s.inputs := rfl
@[simp] theorem State.reject_draws (code : ResultCode) : (s.reject code).draws = s.draws := rfl

/-! ### `respondDiscover` -/

@[simp] theorem State.respondDiscover_cfg (code : ResultCode) : (s.respondDiscover code).cfg = s.cfg := rfl
@[simp] theorem State.respondDiscover_now (code : ResultCode) : (s.respondDiscover code).now = s.now := rfl
@[simp] theorem State.respondDiscover_chan (code : ResultCode) : (s.respondDiscover code).chan = s.chan := rfl
@[simp] theorem State.respondDiscover_positions (code : ResultCode) : (s.respondDiscover code).positions = s.positions := rfl
@[simp] theorem State.respondDiscover_txBuf (code : ResultCode) : (s.respondDiscover code).txBuf = s.txBuf := rfl
@[simp] theorem State.respondDiscover_rxBuf (code : ResultCode) : (s.respondDiscover code).rxBuf = s.rxBuf := rfl
@[simp] theorem State.respondDiscover_sc (code : ResultCode) : (s.respondDiscover code).sc = { s.sc with discReq := none } := rfl
@[simp] theorem State.respondDiscover_rxFifo (code : ResultCode) : (s.respondDiscover code).rxFifo = s.rxFifo := rfl
@[simp] theorem State.respondDiscover_txLog (code : ResultCode) : (s.respondDiscover code).txLog = s.txLog := rfl
@[simp] theorem State.respondDiscover_evq (code : ResultCode) : (s.respondDiscover code).evq = s.evq := rfl
@[simp] theorem State.respondDiscover_responses (code : ResultCode) : (s.respondDiscover code).responses = s.responses ++ (s.sc.discReq.map fun h => Response.mk h code []).toList := rfl
@[simp] theorem State.respondDiscover_host (code : ResultCode) : (s.respondDiscover code).host = s.host := rfl
@[simp] theorem State.respondDiscover_inputs (code : ResultCode) : (s.respondDiscover code).inputs = s.inputs := rfl
@[simp] theorem State.respondDiscover_draws (code : ResultCode) : (s.respondDiscover code).draws = s.draws := rfl

/-! ### `count` -/

@[simp] theorem State.count_cfg (c : Cat) : (s.count c).cfg = s.cfg := rfl
@[simp] theorem State.count_now (c : Cat) : (s.count c).now = s.now := rfl
@[simp] theorem State.count_chan (c : Cat) : (s.count c).chan = { s.chan with ctr := s.chan.ctr.bump c, sec := s.chan.sec.bump c } := rfl
@[simp] theorem State.count_positions (c : Cat) : (s.count c).positions = s.positions := rfl
@[simp] theorem State.count_txBuf (c : Cat) : (s.count c).txBuf = s.txBuf := rfl
@[simp] theorem State.count_rxBuf (c : Cat) : (s.count c).rxBuf = s.rxBuf := rfl
@[simp] theorem State.count_sc (c : Cat) : (s.count c).sc = s.sc := rfl
@[simp] theorem State.count_rxFifo (c : Cat) : (s.count c).rxFifo = s.rxFifo := rfl
@[simp] theorem State.count_txLog (c : Cat) : (s.count c).txLog = s.txLog := rfl
@[simp] theorem State.count_evq (c : Cat) : (s.count c).evq = s.evq := rfl
@[simp] theorem State.count_responses (c : Cat) : (s.count c).responses = s.responses := rfl
@[simp] theorem State.count_host (c : Cat) : (s.count c).host = s.host := rfl
@[simp] theorem State.count_inputs (c : Cat) : (s.count c).inputs = s.inputs := rfl
@[simp] theorem State.count_draws (c : Cat) : (s.count c).draws = s.draws := rfl

/-! ### `emit` -/

@[simp] theorem State.emit_cfg (e : Option Event) : (s.emit e).cfg = s.cfg := rfl
@[simp] theorem State.emit_now (e : Option Event) : (s.emit e).now = s.now := rfl
@[simp] theorem State.emit_chan (e : Option Event) : (s.emit e).chan = s.chan := rfl
@[simp] theorem State.emit_positions (e : Option Event) : (s.emit e).positions = s.positions := rfl
@[simp] theorem State.emit_txBuf (e : Option Event) : (s.emit e).txBuf = s.txBuf := rfl
@[simp] theorem State.emit_rxBuf (e : Option Event) : (s.emit e).rxBuf = s.rxBuf := rfl
@[simp] theorem State.emit_sc (e : Option Event) : (s.emit e).sc = s.sc := rfl
@[simp] theorem State.emit_rxFifo (e : Option Event) : (s.emit e).rxFifo = s.rxFifo := rfl
@[simp] theorem State.emit_txLog (e : Option Event) : (s.emit e).txLog = s.txLog := rfl
@[simp] theorem State.emit_evq (e : Option Event) : (s.emit e).evq = s.evq ++ e.toList := rfl
@[simp] theorem State.emit_responses (e : Option Event) : (s.emit e).responses = s.responses := rfl
@[simp] theorem State.emit_host (e : Option Event) : (s.emit e).host = s.host := rfl
@[simp] theorem State.emit_inputs (e : Option Event) : (s.emit e).inputs = s.inputs := rfl
@[simp] theorem State.emit_draws (e : Option Event) : (s.emit e).draws = s.draws := rfl

/-! ### `setPhase` -/

@[simp] theorem State.setPhase_cfg (p : Phase) : (s.setPhase p).cfg = s.cfg := rfl
@[simp] theorem State.setPhase_now (p : Phase) : (s.setPhase p).now = s.now := rfl
@[simp] theorem State.setPhase_chan (p : Phase) : (s.setPhase p).chan = s.chan := rfl
@[simp] theorem State.setPhase_positions (p : Phase) : (s.setPhase p).positions = s.positions := rfl
@[simp] theorem State.setPhase_txBuf (p : Phase) : (s.setPhase p).txBuf = s.txBuf := rfl
@[simp] theorem State.setPhase_rxBuf (p : Phase) : (s.setPhase p).rxBuf = s.rxBuf := rfl
@[simp] theorem State.setPhase_sc (p : Phase) : (s.setPhase p).sc = { s.sc with phase := p } := rfl
@[simp] theorem State.setPhase_rxFifo (p : Phase) : (s.setPhase p).rxFifo = s.rxFifo := rfl
@[simp] theorem State.setPhase_txLog (p : Phase) : (s.setPhase p).txLog = s.txLog := rfl
@[simp] theorem State.setPhase_evq (p : Phase) : (s.setPhase p).evq = s.evq := rfl
@[simp] theorem State.setPhase_responses (p : Phase) : (s.setPhase p).responses = s.responses := rfl
@[simp] theorem State.setPhase_host (p : Phase) : (s.setPhase p).host = s.host := rfl
@[simp] theorem State.setPhase_inputs (p : Phase) : (s.setPhase p).inputs = s.inputs := rfl
@[simp] theorem State.setPhase_draws (p : Phase) : (s.setPhase p).draws = s.draws := rfl

end Sys2Proof.Machine
end

