-- ==== Sys2Proof/Laws/Scan.lean ====
section
/-! SUPPORT. The steps of a scan cycle: iteration over positions, the frames a build writes, the bytes a train carries,
and what each BUILD and TX step can do. -/

namespace Sys2Proof.Machine

@[simp] theorem forPositions_zero (f : Nat → State → State) (s : State) : forPositions 0 f s = s := rfl

theorem forPositions_succ (n : Nat) (f : Nat → State → State) (s : State) :
    forPositions (n + 1) f s = f n (forPositions n f s) := by
  simp [forPositions, List.range_succ]

/-- Frames written at positions 0 … n − 1 in order: the canonical form stays, each position has its frame, and no byte of
another position changes. -/
theorem Memory.writeFrames (m : Memory) (n : Nat) (g : Nat → Frame) (h : m.wf) :
    let m' := (List.range n).foldl (fun m p => m.writeFrame p (g p)) m
    m'.wf ∧ (∀ p < n, m'.frame p = g p) ∧ ∀ a, 8 * n ≤ a → m'.read a = m.read a := by
  induction n with
  | zero => exact ⟨h, by simp, by simp⟩
  | succ n ih =>
    simp only [List.range_succ, List.foldl_append, List.foldl_cons, List.foldl_nil] at ih ⊢
    obtain ⟨h1, h2, h3⟩ := ih
    refine ⟨Memory.wf_writeFrame h1 _ _, fun p hp => ?_, fun a ha => ?_⟩
    · rw [Memory.frame_writeFrame h1]
      split
      next hpn => rw [hpn]
      next hpn => exact h2 p (by omega)
    · rw [Memory.read_writeFrame h1, if_neg (by omega)]
      exact h3 a (by omega)

theorem forPositions_buildFrame (n : Nat) (s : State) :
    forPositions n buildFrame s = { s with
      txBuf := (List.range n).foldl (fun m p => m.writeFrame p (builtFrame (s.sc.snap.getD p .reset))) s.txBuf } := by
  induction n with
  | zero => rfl
  | succ n ih =>
    rw [forPositions_succ, ih]
    simp only [buildFrame, List.range_succ, List.foldl_append, List.foldl_cons, List.foldl_nil]

/-- `overScanned` answers its state, or the fault of arrays too short for the scan. -/
theorem overScanned_next {s t u : State} (h : overScanned s t = .next u) : u = t ∧ s.scanFits = true := by
  unfold overScanned at h
  split at h
  next hf => injection h with h; exact ⟨h.symm, hf⟩
  · cases h

theorem State.scanFits_iff (s : State) :
    s.scanFits = true ↔ s.scanned ≤ s.positions.length ∧ s.scanned ≤ s.sc.snap.length ∧ s.scanned ≤ s.cap := by
  simp [State.scanFits, and_assoc]

theorem overScanned_of_fits {s : State} (t : State) (h : s.scanFits = true) : overScanned s t = .next t := by
  simp [overScanned, h]

/-- What a BUILD step can do: one pending group read, or, with no read pending, the completion. -/
theorem buildStep_next {pick : Nat} {s t : State} (h : buildStep pick s = .next t) :
    (∃ p g P n, s.sc.pending[pick % s.sc.pending.length]? = some (p, g) ∧ s.pos? p = some P ∧ s.sc.snap[p]? = some n ∧
      t = buildRead p g P n s) ∨
    (s.sc.pending = [] ∧ s.scanFits = true ∧ t = (forPositions s.scanned buildFrame s).setPhase .tx) := by
  unfold buildStep at h
  split at h
  next p g hp =>
    split at h
    next P n hP hn => injection h with h; exact .inl ⟨p, g, P, n, hp, hP, hn, h.symm⟩
    · cases h
  next hp =>
    obtain ⟨h1, h2⟩ := overScanned_next h
    refine .inr ⟨?_, h2, h1⟩
    by_contra hne
    have : 0 < s.sc.pending.length := List.length_pos_iff.2 hne
    rw [List.getElem?_eq_none_iff] at hp
    have := Nat.mod_lt pick this
    omega

theorem txBytes_length (s : State) : (txBytes s).length = 8 * s.scanned := by
  simp [txBytes, Frame.bytes, List.length_flatMap, Nat.mul_comm]

/-- Byte `j` of the frame of position `p` stands at place `8p + j` of a train's bytes (R64). -/
theorem txBytes_getElem? (s : State) {p j : Nat} (hp : p < s.scanned) (hj : j < 8) :
    (txBytes s)[8 * p + j]? = some (s.txBuf.read (8 * p + j)) := by
  have key : ∀ n, p < n → ((List.range n).flatMap fun p => (s.txFrame p).bytes)[8 * p + j]? =
      some (s.txBuf.read (8 * p + j)) := by
    intro n
    induction n with
    | zero => omega
    | succ n ih =>
      intro hn
      have hl : ((List.range n).flatMap fun p => (s.txFrame p).bytes).length = 8 * n := by
        simp [Frame.bytes, List.length_flatMap, Nat.mul_comm]
      rw [List.range_succ, List.flatMap_append]
      by_cases h : p < n
      · rw [List.getElem?_append_left (by omega)]
        exact ih h
      · obtain rfl : p = n := by omega
        rw [List.getElem?_append_right (by omega), hl, Nat.add_sub_cancel_left]
        interval_cases j <;> simp [Frame.bytes, State.txFrame, Memory.frame]
  exact key _ hp

/-- The TX step sends the bits of the scanned frames, one pulse each, and counts no underrun (R162, R207). -/
theorem txStep_eq (s : State) :
    txStep s = overScanned s ({ s with
      txLog := s.txLog ++ [(bitsOfBytes (txBytes s)).map (pulseOf s.cfg)] }.setPhase .rx) := by
  unfold txStep
  rw [show Config.frameBits * s.scanned = 8 * (txBytes s).length by rw [txBytes_length, Config.frameBits]; omega,
    phyEncode_all]
  rfl

end Sys2Proof.Machine
end

