-- ==== Sys2Proof/Laws/Classify.lean ====
section
/-! SUPPORT. The CLASSIFY step: what part 1 can do, what parts 2 to 5 do to one position, and what the whole step
changes. -/

namespace Sys2Proof.Machine

theorem Counters.get_bump (t : Counters) (c k : Cat) :
    (t.bump c).get k = if k = c then t.get k + 1 else t.get k := by
  cases c <;> cases k <;> rfl

theorem SlotCounters.get_bumpAll (t : SlotCounters) (f : SlotCat → Bool) (c : SlotCat) :
    (t.bumpAll f).get c = if f c then t.get c + 1 else t.get c := by
  cases c <;> rfl

theorem forPositions_store (bytes : List Byte) (n : Nat) (s : State) :
    forPositions n (fun p t => { t with rxBuf := t.rxBuf.writeFrame p (frameAt bytes p) }) s = { s with
      rxBuf := (List.range n).foldl (fun m p => m.writeFrame p (frameAt bytes p)) s.rxBuf } := by
  induction n with
  | zero => rfl
  | succ n ih =>
    rw [forPositions_succ, ih]
    simp only [List.range_succ, List.foldl_append, List.foldl_cons, List.foldl_nil]

/-- What part 1 can do (R210): a symbol error, a wrong size, or a capture whose frames are stored. -/
theorem classifyCapture_cases (s : State) :
    (phyDecode s.cfg s.sc.capture (64 * s.scanned) = .symErr ∧
      classifyCapture s = (setCycErr .sym { s with rxFifo := [] }).count .rxsym) ∨
    (∃ bytes n, phyDecode s.cfg s.sc.capture (64 * s.scanned) = .ok bytes n ∧ n ≠ 64 * s.scanned ∧
      classifyCapture s = (setCycErr .size (if 64 * s.scanned < n then s.count .rxovr else s)).count .rxsize) ∨
    (∃ bytes, phyDecode s.cfg s.sc.capture (64 * s.scanned) = .ok bytes (64 * s.scanned) ∧
      classifyCapture s = { setCycErr .none s with
        rxBuf := (List.range s.scanned).foldl (fun m p => m.writeFrame p (frameAt bytes p)) s.rxBuf }) := by
  unfold classifyCapture
  simp only [Config.frameBits]
  split
  next h => exact .inl ⟨h, rfl⟩
  next bytes n h =>
    by_cases hn : n = 64 * s.scanned
    · subst hn
      refine .inr (.inr ⟨bytes, h, ?_⟩)
      simp only [Nat.lt_irrefl, if_true, if_false, storeFrames, forPositions_store]
      rfl
    · refine .inr (.inl ⟨bytes, n, h, hn, ?_⟩)
      rw [if_neg hn]

/-- Part 1 writes `CYCERR`, the receive FIFO, `RXBUF` and counters only. -/
theorem classifyCapture_frame (s : State) :
    ∃ e f m a b, classifyCapture s = { s with
      sc := { s.sc with cycErr := e }, rxFifo := f, rxBuf := m, chan := { s.chan with ctr := a, sec := b } } := by
  rcases classifyCapture_cases s with ⟨-, h⟩ | ⟨_, n, -, -, h⟩ | ⟨_, -, h⟩ <;> rw [h]
  · exact ⟨_, _, _, _, _, rfl⟩
  · split <;> exact ⟨_, _, _, _, _, rfl⟩
  · exact ⟨_, _, _, _, _, rfl⟩

/-- Which channel counter a newly raised category of a position feeds (R213). -/
theorem countNew_get (new : SlotCat → Bool) (s : State) (c : Cat) :
    (countNew new s).chan.ctr.get c = s.chan.ctr.get c +
      (if (decide (c = .rxcrc) && new .crc) || (decide (c = .rcrc) && new .rcrc) || (decide (c = .wd) && new .wd) then 1 else 0) ∧
    (countNew new s).chan.sec.get c = s.chan.sec.get c +
      (if (decide (c = .rxcrc) && new .crc) || (decide (c = .rcrc) && new .rcrc) || (decide (c = .wd) && new .wd) then 1 else 0) := by
  cases h1 : new .crc <;> cases h2 : new .rcrc <;> cases h3 : new .wd <;> cases c <;>
    simp [countNew, SlotCat.chan, h1, h2, h3, Counters.get, Counters.bump, State.count, inc32]

/-- `countNew` writes the two counter sets only. -/
theorem countNew_frame (new : SlotCat → Bool) (s : State) :
    ∃ a b, countNew new s = { s with chan := { s.chan with ctr := a, sec := b } } := by
  cases h1 : new .crc <;> cases h2 : new .rcrc <;> cases h3 : new .wd <;>
    exact ⟨_, _, by simp only [countNew, SlotCat.chan, h1, h2, h3, List.foldl_cons, List.foldl_nil, if_true,
      Bool.false_eq_true, if_false]; rfl⟩

/-- Parts 2 to 5 over positions 0 … n − 1: each has its classified record; the events come in position order; the counters
rise by the number of newly raised categories; nothing else changes. -/
theorem forPositions_classify (n : Nat) (s : State) :
    ∃ ps a b, forPositions n classifyPosition s = { s with
        positions := ps
        chan := { s.chan with ctr := a, sec := b }
        evq := s.evq ++ (List.range n).flatMap fun p => ((s.pos? p).bind (eventAt s p)).toList } ∧
      ps.length = s.positions.length ∧
      (∀ p, ps[p]? = if p < n then (s.pos? p).map (classifiedAt s p) else s.pos? p) ∧
      ∀ c, let k := ((List.range n).filter fun p => (s.pos? p).any fun P =>
            (decide (c = .rxcrc) && newAt s p P .crc) || (decide (c = .rcrc) && newAt s p P .rcrc) || (decide (c = .wd) && newAt s p P .wd)).length
        a.get c = s.chan.ctr.get c + BitVec.ofNat 32 k ∧ b.get c = s.chan.sec.get c + BitVec.ofNat 32 k := by
  induction n with
  | zero => exact ⟨s.positions, s.chan.ctr, s.chan.sec, by simp, rfl, by simp [State.pos?], by simp⟩
  | succ n ih =>
    obtain ⟨ps, a, b, he, hl, hp, hc⟩ := ih
    rw [forPositions_succ, he]
    have hpn : ps[n]? = s.pos? n := by rw [hp, if_neg (Nat.lt_irrefl n)]
    unfold classifyPosition
    cases hP : s.pos? n with
    | none =>
      have h1 : State.pos? { s with
          positions := ps
          chan := { s.chan with ctr := a, sec := b }
          evq := s.evq ++ (List.range n).flatMap fun p => ((s.pos? p).bind (eventAt s p)).toList } n = none := by
        show ps[n]? = none
        rw [hpn, hP]
      rw [h1]
      refine ⟨ps, a, b, ?_, hl, fun p => ?_, fun c => ?_⟩
      · simp [List.range_succ, hP]
      · rw [hp]
        by_cases h : p < n
        · simp [h, Nat.lt_succ_of_lt h]
        · by_cases h2 : p = n
          · subst h2; simp [hP]
          · simp [h, show ¬ p < n + 1 by omega]
      · have := hc c
        simp only [List.range_succ, List.filter_append, List.filter_cons, List.filter_nil, hP, Option.any_none] at this ⊢
        simpa using this
    | some P =>
      have h1 : State.pos? { s with
          positions := ps
          chan := { s.chan with ctr := a, sec := b }
          evq := s.evq ++ (List.range n).flatMap fun p => ((s.pos? p).bind (eventAt s p)).toList } n = some P := by
        show ps[n]? = some P
        rw [hpn, hP]
      rw [h1]
      simp only [classifyRecord]
      generalize hu : State.setPos _ _ _ = u
      obtain ⟨a', b', hcn⟩ := countNew_frame (newAt { s with
          positions := ps
          chan := { s.chan with ctr := a, sec := b }
          evq := s.evq ++ (List.range n).flatMap fun p => ((s.pos? p).bind (eventAt s p)).toList } n P) u
      have hg := countNew_get (newAt s n P) u
      change countNew (newAt s n P) u = _ at hcn
      refine ⟨ps.set n (classifiedAt s n P), a', b', ?_, by simpa using hl, fun p => ?_, fun c => ?_⟩
      · show State.emit (countNew (newAt s n P) u) (eventAt s n P) = _
        rw [hcn, ← hu]
        simp only [State.emit, State.setPos, List.range_succ, List.flatMap_append, List.flatMap_cons, List.flatMap_nil,
          List.append_nil, hP, Option.bind_some, List.append_assoc]
        rfl
      · rw [List.getElem?_set, hp, hl]
        have hn : n < s.positions.length := (List.getElem?_eq_some_iff.1 hP).1
        by_cases h2 : n = p
        · subst h2; simp [hP, hn]
        · by_cases h : p < n
          · simp [h, h2, Nat.lt_succ_of_lt h]
          · simp [h, h2, show ¬ p < n + 1 by omega]
      · have h := hc c
        have hg := hg c
        rw [hcn, ← hu] at hg
        simp only [State.setPos] at hg
        simp only [List.range_succ, List.filter_append, List.filter_cons, List.filter_nil, hP, Option.any_some,
          List.length_append] at h ⊢
        rw [hg.1, hg.2, h.1, h.2]
        have key : ∀ x : Bool, BitVec.ofNat 32 (if x then [n] else []).length = if x then 1#32 else 0 := by
          intro x; cases x <;> rfl
        rw [BitVec.ofNat_add, key]
        simp only [BitVec.add_assoc]
        exact ⟨rfl, rfl⟩

/-- The CLASSIFY step's parts 1 to 5 write the positions, `CYCERR`, the receive FIFO, `RXBUF`, the counters and the event
queue only, and keep the number of positions. -/
theorem classifyAll_frame (s : State) :
    ∃ ps e f m a b v, classifyAll s = { s with
      positions := ps, sc := { s.sc with cycErr := e }, rxFifo := f, rxBuf := m
      chan := { s.chan with ctr := a, sec := b }, evq := v } ∧ ps.length = s.positions.length := by
  obtain ⟨e, f, m, a, b, h⟩ := classifyCapture_frame s
  obtain ⟨ps, a', b', h', hl, -⟩ := forPositions_classify s.scanned (classifyCapture s)
  unfold classifyAll
  rw [h']
  rw [h] at hl ⊢
  exact ⟨_, _, _, _, _, _, _, rfl, hl⟩

/-- Part 1 leaves the underrun counters as they were. -/
theorem classifyCapture_txund (s : State) :
    (classifyCapture s).chan.ctr.txund = s.chan.ctr.txund ∧ (classifyCapture s).chan.sec.txund = s.chan.sec.txund := by
  rcases classifyCapture_cases s with ⟨-, h⟩ | ⟨_, n, -, -, h⟩ | ⟨_, -, h⟩ <;> rw [h]
  · exact ⟨rfl, rfl⟩
  · split <;> exact ⟨rfl, rfl⟩
  · exact ⟨rfl, rfl⟩

/-- Parts 1 to 5 leave the underrun counters as they were, and make no event during discovery (R349). -/
theorem classifyAll_txund_evq (s : State) :
    (classifyAll s).chan.ctr.txund = s.chan.ctr.txund ∧ (classifyAll s).chan.sec.txund = s.chan.sec.txund ∧
    (s.chan.discovering = true → (classifyAll s).evq = s.evq) := by
  obtain ⟨e, f, m, a, b, h⟩ := classifyCapture_frame s
  obtain ⟨ps, a', b', h', -, -, hc⟩ := forPositions_classify s.scanned (classifyCapture s)
  have hu := classifyCapture_txund s
  have ht := hc .txund
  have key : ∀ l : List Nat, (l.filter fun p => ((classifyCapture s).pos? p).any fun P => false).length = 0 := by simp
  simp only [reduceCtorEq, decide_false, Bool.false_and, Bool.or_false, key, BitVec.add_zero] at ht
  unfold classifyAll
  rw [h']
  refine ⟨ht.1.trans hu.1, ht.2.trans hu.2, fun hd => ?_⟩
  have hd' : (classifyCapture s).chan.discovering = true := by rw [h]; exact hd
  have he : ∀ p P, eventAt (classifyCapture s) p P = none := by
    intro p P
    unfold eventAt eventOf
    rw [if_pos hd']
  have hv : (classifyCapture s).evq = s.evq := by rw [h]
  simp [he, hv]

end Sys2Proof.Machine
end

