-- ==== Sys2Proof/Laws/Decode.lean ====
section
/-! SUPPORT. Command words as four bytes: the fields of a word, the words that select a row, and the operand bytes. -/

namespace Sys2Proof

theorem commandWord_getLsbD (a b c d : Byte) (i : Nat) :
    (commandWord a b c d).getLsbD i =
      if i < 8 then d.getLsbD i else if i < 16 then c.getLsbD (i - 8) else if i < 24 then b.getLsbD (i - 16)
      else a.getLsbD (i - 24) := by
  simp only [commandWord, BitVec.getLsbD_append]
  by_cases h1 : i < 8
  · simp [h1]
  · by_cases h2 : i < 16
    · simp [h1, h2, show i - 8 < 8 by omega]
    · by_cases h3 : i < 24
      · simp [h1, h2, h3, show ¬ i - 8 < 8 by omega, show i - 8 - 8 = i - 16 by omega, show i - 16 < 8 by omega]
      · simp [h1, h2, h3, show ¬ i - 8 < 8 by omega, show ¬ i - 8 - 8 < 8 by omega,
          show i - 8 - 8 - 8 = i - 24 by omega]

theorem commandWord_and (a b c d a' b' c' d' : Byte) :
    commandWord a b c d &&& commandWord a' b' c' d' = commandWord (a &&& a') (b &&& b') (c &&& c') (d &&& d') := by
  apply BitVec.eq_of_getLsbD_eq
  intro i hi
  simp only [BitVec.getLsbD_and, commandWord_getLsbD]
  split
  · rfl
  · split
    · rfl
    · split <;> rfl

@[simp] theorem fieldOp_commandWord (a b c d : Byte) : fieldOp (commandWord a b c d) = a := by
  apply BitVec.eq_of_getLsbD_eq
  intro i hi
  simp only [fieldOp, BitVec.getLsbD_extractLsb', commandWord_getLsbD, hi, decide_true, Bool.true_and]
  rw [if_neg (by omega), if_neg (by omega), if_neg (by omega)]
  congr 1; omega

@[simp] theorem fieldA_commandWord (a b c d : Byte) : fieldA (commandWord a b c d) = b := by
  apply BitVec.eq_of_getLsbD_eq
  intro i hi
  simp only [fieldA, BitVec.getLsbD_extractLsb', commandWord_getLsbD, hi, decide_true, Bool.true_and]
  rw [if_neg (by omega), if_neg (by omega), if_pos (by omega)]
  congr 1; omega

/-- Bits 15:8 of a command word. -/
theorem extractI_commandWord (a b c d : Byte) : (commandWord a b c d).extractLsb' 8 8 = c := by
  apply BitVec.eq_of_getLsbD_eq
  intro i hi
  simp only [BitVec.getLsbD_extractLsb', commandWord_getLsbD, hi, decide_true, Bool.true_and]
  rw [if_neg (by omega), if_pos (by omega)]
  congr 1; omega

@[simp] theorem fieldI_commandWord (a b c d : Byte) : fieldI (commandWord a b c d) = c.extractLsb' 0 2 := by
  apply BitVec.eq_of_getLsbD_eq
  intro i hi
  simp only [fieldI, BitVec.getLsbD_extractLsb', commandWord_getLsbD, hi, decide_true, Bool.true_and]
  rw [if_neg (by omega), if_pos (by omega)]
  congr 1; omega

@[simp] theorem fieldV_commandWord (a b c d : Byte) : fieldV (commandWord a b c d) = d := by
  apply BitVec.eq_of_getLsbD_eq
  intro i hi
  simp only [fieldV, BitVec.getLsbD_extractLsb', commandWord_getLsbD, hi, decide_true, Bool.true_and]
  rw [if_pos (by omega)]
  congr 1; omega

@[simp] theorem fieldMode_commandWord (a b c d : Byte) : fieldMode (commandWord a b c d) = d.extractLsb' 0 3 := by
  apply BitVec.eq_of_getLsbD_eq
  intro i hi
  simp only [fieldMode, BitVec.getLsbD_extractLsb', commandWord_getLsbD, hi, decide_true, Bool.true_and]
  rw [if_pos (by omega)]

@[simp] theorem fieldV0_commandWord (a b c d : Byte) : fieldV0 (commandWord a b c d) = d.getLsbD 0 := by
  simp only [fieldV0, commandWord_getLsbD, Nat.zero_lt_succ, if_true, show 0 < 8 by omega]

theorem commandWord_inj (a b c d a' b' c' d' : Byte) :
    commandWord a b c d = commandWord a' b' c' d' ↔ a = a' ∧ b = b' ∧ c = c' ∧ d = d' := by
  constructor
  · intro h
    have h1 := congrArg fieldOp h
    have h2 := congrArg fieldA h
    have h3 := congrArg (BitVec.extractLsb' 8 8) h
    have h4 := congrArg fieldV h
    simp only [fieldOp_commandWord, fieldA_commandWord, extractI_commandWord, fieldV_commandWord] at h1 h2 h3 h4
    exact ⟨h1, h2, h3, h4⟩
  · rintro ⟨rfl, rfl, rfl, rfl⟩; rfl

/-- Every word is a command word of its own four fields. -/
theorem exists_commandWord (w : Word) : ∃ a b c d, w = commandWord a b c d := by
  refine ⟨fieldOp w, fieldA w, w.extractLsb' 8 8, fieldV w, ?_⟩
  apply BitVec.eq_of_getLsbD_eq
  intro i hi
  simp only [commandWord_getLsbD, fieldOp, fieldA, fieldV, BitVec.getLsbD_extractLsb']
  split
  · rename_i h; simp [h]
  · split
    · simp only [show i - 8 < 8 by omega, decide_true, Bool.true_and]; congr 1; omega
    · split
      · simp only [show i - 16 < 8 by omega, decide_true, Bool.true_and]; congr 1; omega
      · simp only [show i - 24 < 8 by omega, decide_true, Bool.true_and]; congr 1; omega

/-- A word selects a row exactly when its four bytes do, under the row's four mask bytes (R90). -/
theorem commandWord_selects (a b c d ma mb mc md pa pb pc pd : Byte) :
    commandWord a b c d &&& commandWord ma mb mc md = commandWord pa pb pc pd ↔
      a &&& ma = pa ∧ b &&& mb = pb ∧ c &&& mc = pc ∧ d &&& md = pd := by
  rw [commandWord_and, commandWord_inj]

end Sys2Proof
end

