-- ==== Sys2Proof/Laws/Discovery.lean ====
section
/-! SUPPORT. The discovery steps and the health step: the count of satellites, and what each step changes. -/

namespace Sys2Proof.Machine

/-- Every position before the count answers with a remote-CRC error, and the position at the count does not (R183). -/
theorem satellitesFound_spec (ps : List Position) :
    (∀ p P, p < satellitesFound ps → ps[p]? = some P → P.rxm.remoteCrcError = true) ∧
    ∀ P, ps[satellitesFound ps]? = some P → P.rxm.remoteCrcError = false := by
  induction ps with
  | nil => simp [satellitesFound]
  | cons Q qs ih =>
    cases hQ : Q.rxm.remoteCrcError
    · simp [satellitesFound, hQ]
    · have hs : satellitesFound (Q :: qs) = satellitesFound qs + 1 := by
        simp [satellitesFound, hQ]
      rw [hs]
      refine ⟨fun p P hp hP => ?_, fun P hP => ih.2 P (by simpa using hP)⟩
      cases p with
      | zero =>
        simp only [List.getElem?_cons_zero, Option.some.injEq] at hP
        rw [← hP, hQ]
      | succ p => exact ih.1 p P (by omega) (by simpa using hP)

/-- A position without a remote-CRC error bounds the count. -/
theorem satellitesFound_le {ps : List Position} {p : Nat} {P : Position} (hP : ps[p]? = some P)
    (h : P.rxm.remoteCrcError = false) : satellitesFound ps ≤ p := by
  by_contra hlt
  rw [(satellitesFound_spec ps).1 p P (by omega) hP] at h
  cases h

/-- Health writes bit `ERRBLK`, the window start and the this-second counters only. -/
theorem healthEval_frame (now : Nat) (ch : Channel) :
    ∃ o w t, healthEval now ch = { ch with opstate := o, wstart := w, sec := t } ∧
      o.getLsbD 0 = ch.opstate.getLsbD 0 ∧ o.getLsbD 2 = ch.opstate.getLsbD 2 ∧ (t = ch.sec ∨ t = .zero) := by
  have hB : ∃ o, blockTest (errorSum ch.sec) ch = { ch with opstate := o } ∧
      o.getLsbD 0 = ch.opstate.getLsbD 0 ∧ o.getLsbD 2 = ch.opstate.getLsbD 2 := by
    unfold blockTest
    split
    · exact ⟨_, rfl, by rw [setBit_getLsbD _ _ _ _ (by decide)]; rfl, by rw [setBit_getLsbD _ _ _ _ (by decide)]; rfl⟩
    · exact ⟨_, rfl, rfl, rfl⟩
  obtain ⟨o, ho, h0, h2⟩ := hB
  unfold healthEval windowTest
  rw [ho]
  split
  · split
    · refine ⟨setBit o 1 false, _, _, rfl, ?_, ?_, .inr rfl⟩ <;> rw [setBit_getLsbD _ _ _ _ (by decide)]
      · exact h0
      · exact h2
    · exact ⟨o, _, _, rfl, h0, h2, .inr rfl⟩
  · exact ⟨o, _, _, rfl, h0, h2, .inl rfl⟩

end Sys2Proof.Machine
end

