-- ==== Sys2Proof/Laws/PerInstr.lean ====
section
/-! SUPPORT. Per command, as syntax: the line an assembler writes for it is well-formed and assembles to it (R96). -/

namespace Sys2Proof.Laws.Assembles

/-- The line of the command has every operand in range, and the assembler reads the command back from it. -/
def Statement (i : Instr) : Prop := i.WellFormed ∧ i.toAsm.assemble = some i

/-- A well-formed line that builds the command. -/
theorem of_build {i : Instr} (h : i.WellFormed)
    (hb : AsmLine.build i.toAsm.mnemonic (i.toAsm.operands.getD 0 0) (i.toAsm.operands.getD 1 0)
      (i.toAsm.operands.getD 2 0) = i) : Statement i :=
  ⟨h, (if_pos h).trans (congrArg some hb)⟩

theorem range_one {m : Mnemonic} {n x : Nat} (h : m.format.bounds = [n]) (hx : x < n) :
    (AsmLine.mk m [x]).wellFormed = true := by
  simp [AsmLine.wellFormed, AsmLine.arityOk, AsmLine.rangeOk, h, hx]

theorem range_two {m : Mnemonic} {n k x y : Nat} (h : m.format.bounds = [n, k]) (hx : x < n) (hy : y < k) :
    (AsmLine.mk m [x, y]).wellFormed = true := by
  simp [AsmLine.wellFormed, AsmLine.arityOk, AsmLine.rangeOk, h, hx, hy]

theorem range_three {m : Mnemonic} {n k l x y z : Nat} (h : m.format.bounds = [n, k, l]) (hx : x < n) (hy : y < k)
    (hz : z < l) : (AsmLine.mk m [x, y, z]).wellFormed = true := by
  simp [AsmLine.wellFormed, AsmLine.arityOk, AsmLine.rangeOk, h, hx, hy, hz]

theorem bool_lt (b : Bool) : b.toNat < 2 := by cases b <;> decide

theorem enable : Statement .enable := of_build rfl rfl

theorem disable : Statement .disable := of_build rfl rfl

theorem discover : Statement .discover := of_build rfl rfl

theorem setThresholds (high low : BitVec 16) : Statement (.setThresholds high low) :=
  of_build (range_two rfl high.isLt low.isLt) (by simp [Instr.toAsm, AsmLine.build])

theorem getStats (reset : Bool) : Statement (.getStats reset) :=
  of_build (range_one rfl (bool_lt reset)) (by simp [Instr.toAsm, AsmLine.build])

theorem getSlotCount : Statement .getSlotCount := of_build rfl rfl

theorem getSlotHandle (a : Byte) : Statement (.getSlotHandle a) :=
  of_build (range_one rfl a.isLt) (by simp [Instr.toAsm, AsmLine.build])

theorem setCtrlBlock (v : Bool) : Statement (.setCtrlBlock v) :=
  of_build (range_one rfl (bool_lt v)) (by simp [Instr.toAsm, AsmLine.build])

theorem getChannelState : Statement .getChannelState := of_build rfl rfl

theorem setActValue (a : Byte) (i : BitVec 2) (v : Byte) : Statement (.setActValue a i v) :=
  of_build (range_three rfl a.isLt i.isLt v.isLt) (by simp [Instr.toAsm, AsmLine.build])

theorem setActMode (a : Byte) (i : BitVec 2) (m : BitVec 3) : Statement (.setActMode a i m) :=
  of_build (range_three rfl a.isLt i.isLt m.isLt) (by simp [Instr.toAsm, AsmLine.build])

theorem setSlotEnable (a : Byte) (v : Bool) : Statement (.setSlotEnable a v) :=
  of_build (range_two rfl a.isLt (bool_lt v)) (by simp [Instr.toAsm, AsmLine.build])

theorem setInvServerCrc (a : Byte) (v : Bool) : Statement (.setInvServerCrc a v) :=
  of_build (range_two rfl a.isLt (bool_lt v)) (by simp [Instr.toAsm, AsmLine.build])

theorem setInvClientCrc (a : Byte) (v : Bool) : Statement (.setInvClientCrc a v) :=
  of_build (range_two rfl a.isLt (bool_lt v)) (by simp [Instr.toAsm, AsmLine.build])

theorem readSensor (a : Byte) : Statement (.readSensor a) :=
  of_build (range_one rfl a.isLt) (by simp [Instr.toAsm, AsmLine.build])

theorem readStatus (a : Byte) : Statement (.readStatus a) :=
  of_build (range_one rfl a.isLt) (by simp [Instr.toAsm, AsmLine.build])

theorem getSlotStats (a : Byte) (reset : Bool) : Statement (.getSlotStats a reset) :=
  of_build (range_two rfl a.isLt (bool_lt reset)) (by simp [Instr.toAsm, AsmLine.build])

theorem readTxFrame (a : Byte) : Statement (.readTxFrame a) :=
  of_build (range_one rfl a.isLt) (by simp [Instr.toAsm, AsmLine.build])

theorem readRxFrame (a : Byte) : Statement (.readRxFrame a) :=
  of_build (range_one rfl a.isLt) (by simp [Instr.toAsm, AsmLine.build])

end Sys2Proof.Laws.Assembles
end

