-- ==== Sys2Proof/Laws/Step.lean ====
section
/-! SUPPORT. What a step can do: what a command can do, what SC's step does in each phase, and what a scheduled move
can do. -/

namespace Sys2Proof.Machine

/-- A slot write keeps every field of the record but the TX registers, and of these it keeps `START_MARK` and sets
`TX_DIRTY`. -/
def Position.HostWrite (P Q : Position) : Prop :=
  Q.rxm = P.rxm ∧ Q.status = P.status ∧ Q.dirty = P.dirty ∧ Q.srvState = P.srvState ∧ Q.srvCount = P.srvCount ∧
    Q.cliState = P.cliState ∧ Q.cliCountP = P.cliCountP ∧ Q.tx.startMark = P.tx.startMark ∧
    (P.tx.txDirty = true → Q.tx.txDirty = true)

theorem slotCommand_next {a : Byte} {s t : State} {effect : Position → Result} (h : slotCommand a s effect = .next t) :
    t = s.reject .wrongState ∨ t = s.reject .noSuchSlot ∨
    ∃ P, effect P = .next t ∧ s.pos? a.toNat = some P ∧ s.chan.discovering = false ∧ a.toNat < s.chan.nsats.toNat := by
  rcases slotCommand_cases a s effect with h1 | h1 | ⟨P, h1, h2⟩ | ⟨h1, -⟩ <;> rw [h1] at h
  · injection h with h; exact .inl h.symm
  · injection h with h; exact .inr (.inl h.symm)
  · exact .inr (.inr ⟨P, h, h2⟩)
  · cases h

theorem channelCommand_next {pre : Bool} {s t u : State} (h : channelCommand pre s t = .next u) :
    u = s.reject .wrongState ∨ (u = t ∧ s.chan.discovering = false ∧ pre = true) := by
  rcases channelCommand_cases pre s t with h1 | ⟨h1, h2⟩ <;> rw [h1] at h <;> injection h with h
  · exact .inl h.symm
  · exact .inr ⟨h.symm, h2⟩

/-- Everything a command can do when it answers a next state: one response and nothing else; the effect of ENABLE,
DISABLE or DISCOVER under its precondition; new thresholds, a new `CBL` or cleared lifetime counters; or a write of one
live slot's record. -/
theorem exec_next {i : Instr} {s t : State} (h : exec i s = .next t) :
    (∃ code words, t = s.respond code words) ∨
    (i = .enable ∧ s.chan.discovering = false ∧ s.chan.admin = false ∧ s.sc.phase = .stopped ∧
      t = ({ s with
        chan := { s.chan.setDis false with admin := true, nextstart := s.now, wstart := s.now, sec := .zero }
        sc := { s.sc with phase := .wait } }.respond .ok [])) ∨
    (i = .disable ∧ s.chan.discovering = false ∧ s.chan.admin = true ∧
      t = ({ s with chan := { s.chan.setDis true with admin := false } }.respond .ok [])) ∨
    (i = .discover ∧ s.chan.discovering = false ∧ s.chan.admin = false ∧ s.sc.phase = .stopped ∧
      t = { s with sc := { s.sc with discReq := some s.host, phase := .dStart } }) ∨
    (∃ high low, s.chan.discovering = false ∧
      t = ({ s with chan := { s.chan with thHigh := high, thLow := low } }.respond .ok [])) ∨
    (∃ v, s.chan.discovering = false ∧ t = ({ s with chan := s.chan.setCbl v }.respond .ok [])) ∨
    (∃ words, t = ({ s with chan := { s.chan with ctr := .zero } }.respond .ok words)) ∨
    (∃ p P Q words, s.pos? p = some P ∧ s.chan.discovering = false ∧ p < s.chan.nsats.toNat ∧ P.HostWrite Q ∧
      t = (s.setPos p Q).respond .ok words) := by
  have write : ∀ a f, (∀ x : TxRegs, (f x).startMark = x.startMark) → slotWrite a f s = .next t →
      (∃ code words, t = s.respond code words) ∨ (∃ p P Q words, s.pos? p = some P ∧ s.chan.discovering = false ∧
        p < s.chan.nsats.toNat ∧ P.HostWrite Q ∧ t = (s.setPos p Q).respond .ok words) := by
    intro a f hf h
    rcases slotCommand_next h with h | h | ⟨P, h, hP, hd, hn⟩
    · exact .inl ⟨_, _, h⟩
    · exact .inl ⟨_, _, h⟩
    · injection h with h
      exact .inr ⟨_, P, { P with tx := { f P.tx with txDirty := true } }, _, hP, hd, hn,
        ⟨rfl, rfl, rfl, rfl, rfl, rfl, rfl, hf P.tx, fun _ => rfl⟩, h.symm⟩
  have read : ∀ a w, slotRead a w s = .next t → ∃ code words, t = s.respond code words := by
    intro a w h
    rcases slotCommand_next h with h | h | ⟨P, h, -⟩
    · exact ⟨_, _, h⟩
    · exact ⟨_, _, h⟩
    · injection h with h; exact ⟨_, _, h.symm⟩
  have frame : ∀ a m w, frameRead a m w s = .next t → ∃ code words, t = s.respond code words := by
    intro a m w h
    rcases slotCommand_next h with h | h | ⟨P, h, -⟩
    · exact ⟨_, _, h⟩
    · exact ⟨_, _, h⟩
    · split at h
      · injection h with h; exact ⟨_, _, h.symm⟩
      · cases h
  cases i with
  | enable =>
    rcases channelCommand_next h with h | ⟨h, hd, hp⟩
    · exact .inl ⟨_, _, h⟩
    · simp only [Bool.and_eq_true, Bool.not_eq_true', beq_iff_eq] at hp
      exact .inr (.inl ⟨rfl, hd, hp.1, hp.2, h⟩)
  | disable =>
    rcases channelCommand_next h with h | ⟨h, hd, hp⟩
    · exact .inl ⟨_, _, h⟩
    · exact .inr (.inr (.inl ⟨rfl, hd, hp, h⟩))
  | discover =>
    rcases channelCommand_next h with h | ⟨h, hd, hp⟩
    · exact .inl ⟨_, _, h⟩
    · simp only [Bool.and_eq_true, Bool.not_eq_true', beq_iff_eq] at hp
      exact .inr (.inr (.inr (.inl ⟨rfl, hd, hp.1, hp.2, h⟩)))
  | setThresholds high low =>
    rcases channelCommand_next h with h | ⟨h, hd, -⟩
    · exact .inl ⟨_, _, h⟩
    · exact .inr (.inr (.inr (.inr (.inl ⟨_, _, hd, h⟩))))
  | setCtrlBlock v =>
    rcases channelCommand_next h with h | ⟨h, hd, -⟩
    · exact .inl ⟨_, _, h⟩
    · exact .inr (.inr (.inr (.inr (.inr (.inl ⟨_, hd, h⟩)))))
  | getStats r =>
    injection h with h
    cases r
    · exact .inl ⟨_, _, h.symm⟩
    · exact .inr (.inr (.inr (.inr (.inr (.inr (.inl ⟨_, h.symm⟩))))))
  | getSlotCount =>
    rcases channelCommand_next h with h | ⟨h, -⟩ <;> exact .inl ⟨_, _, h⟩
  | getChannelState => injection h with h; exact .inl ⟨_, _, h.symm⟩
  | getSlotHandle a => exact .inl (read a _ h)
  | setActValue a k v =>
    exact (write a (fun x => { x with actVal := x.actVal.set k v }) (fun _ => rfl) h).imp_right
      fun h => .inr (.inr (.inr (.inr (.inr (.inr h)))))
  | setActMode a k m =>
    exact (write a (fun x => { x with actMode := x.actMode.set k m }) (fun _ => rfl) h).imp_right
      fun h => .inr (.inr (.inr (.inr (.inr (.inr h)))))
  | setSlotEnable a v =>
    exact (write a (fun x => { x with enable := v }) (fun _ => rfl) h).imp_right
      fun h => .inr (.inr (.inr (.inr (.inr (.inr h)))))
  | setInvServerCrc a v =>
    exact (write a (fun x => { x with invSrv := v }) (fun _ => rfl) h).imp_right
      fun h => .inr (.inr (.inr (.inr (.inr (.inr h)))))
  | setInvClientCrc a v =>
    exact (write a (fun x => { x with invCli := v }) (fun _ => rfl) h).imp_right
      fun h => .inr (.inr (.inr (.inr (.inr (.inr h)))))
  | readSensor a => exact .inl (read a _ h)
  | readStatus a => exact .inl (read a _ h)
  | getSlotStats a r =>
    rcases slotCommand_next h with h | h | ⟨P, h, hP, hd, hn⟩
    · exact .inl ⟨_, _, h⟩
    · exact .inl ⟨_, _, h⟩
    · injection h with h
      exact .inr (.inr (.inr (.inr (.inr (.inr (.inr ⟨_, P, { P with sctr := if r then .zero else P.sctr }, _, hP, hd, hn,
        ⟨rfl, rfl, rfl, rfl, rfl, rfl, rfl, rfl, id⟩, h.symm⟩))))))
  | readTxFrame a => exact .inl (frame a _ _ h)
  | readRxFrame a => exact .inl (frame a _ _ h)

/-- What no step of SC does: it keeps the configuration, the time, the schedule, the thresholds and `ADMIN`; it takes back
no train and no response; it counts no underrun; it makes no event during discovery; and only a discovery's steps change
`NSATS`. -/
structure ScFrame (s t : State) : Prop where
  cfg : t.cfg = s.cfg
  now : t.now = s.now
  schedule : t.inputs = s.inputs ∧ t.draws = s.draws ∧ t.host = s.host
  channel : t.chan.thHigh = s.chan.thHigh ∧ t.chan.thLow = s.chan.thLow ∧ t.chan.admin = s.chan.admin
  txLog : s.txLog <+: t.txLog
  responses : s.responses <+: t.responses
  underrun : t.chan.ctr.txund = s.chan.ctr.txund ∧ (t.chan.sec.txund = s.chan.sec.txund ∨ t.chan.sec.txund = 0)
  events : s.chan.discovering = true → t.evq = s.evq
  nsats : t.chan.nsats = s.chan.nsats ∨ s.sc.phase = .dStart ∨ s.sc.phase = .dEval ∨
    (s.sc.phase = .classify ∧ s.chan.discovering = true)

theorem ScFrame.refl (s : State) : ScFrame s s :=
  ⟨rfl, rfl, ⟨rfl, rfl, rfl⟩, ⟨rfl, rfl, rfl⟩, List.prefix_refl _, List.prefix_refl _, ⟨rfl, .inl rfl⟩, fun _ => rfl,
    .inl rfl⟩

theorem discoveryFail_frame (code : ResultCode) (s : State)
    (h : s.sc.phase = .dEval ∨ (s.sc.phase = .classify ∧ s.chan.discovering = true)) :
    ScFrame s (discoveryFail code s) :=
  ⟨rfl, rfl, ⟨rfl, rfl, rfl⟩, ⟨rfl, rfl, rfl⟩, List.prefix_refl _, List.prefix_append _ _, ⟨rfl, .inl rfl⟩, fun _ => rfl,
    .inr (.inr h)⟩

theorem classifyAll_scFrame (s : State) (h : s.sc.phase = .classify) :
    ScFrame s (classifyAll s) ∧ (classifyAll s).sc.phase = .classify ∧
      (classifyAll s).chan.discovering = s.chan.discovering := by
  obtain ⟨ps, e, f, m, a, b, v, he, -⟩ := classifyAll_frame s
  obtain ⟨h1, h2, h3⟩ := classifyAll_txund_evq s
  refine ⟨⟨?_, ?_, ?_, ?_, ?_, ?_, ⟨h1, .inl h2⟩, h3, .inl ?_⟩, ?_, ?_⟩ <;> rw [he]
  · exact ⟨rfl, rfl, rfl⟩
  · exact ⟨rfl, rfl, rfl⟩
  · exact h

theorem ScFrame.trans {s t u : State} (h : ScFrame s t) (k : ScFrame t u)
    (hd : t.chan.discovering = s.chan.discovering) (hp : t.sc.phase = s.sc.phase) : ScFrame s u := by
  obtain ⟨a1, a2, ⟨a3, a4, a5⟩, ⟨a6, a7, a8⟩, a9, a10, ⟨a11, a12⟩, a13, a14⟩ := h
  obtain ⟨b1, b2, ⟨b3, b4, b5⟩, ⟨b6, b7, b8⟩, b9, b10, ⟨b11, b12⟩, b13, b14⟩ := k
  refine ⟨b1.trans a1, b2.trans a2, ⟨b3.trans a3, b4.trans a4, b5.trans a5⟩, ⟨b6.trans a6, b7.trans a7, b8.trans a8⟩,
    a9.trans b9, a10.trans b10, ⟨b11.trans a11, ?_⟩, fun h => (b13 (hd ▸ h)).trans (a13 h), ?_⟩
  · rcases b12 with h | h
    · rw [h]; exact a12
    · exact .inr h
  · rw [hp, hd] at b14
    rcases b14 with h | h
    · rw [h]; exact a14
    · exact .inr h

/-- Every step of SC has `ScFrame`. -/
theorem scStep_frame {pick : Nat} {s t : State} (h : scStep pick s = .next t) : ScFrame s t := by
  unfold scStep at h
  split at h
  next => injection h with h; subst h; exact .refl s
  next =>
    injection h with h; subst h
    unfold waitStep
    split
    · split
      · exact ⟨rfl, rfl, ⟨rfl, rfl, rfl⟩, ⟨rfl, rfl, rfl⟩, List.prefix_refl _, List.prefix_refl _, ⟨rfl, .inl rfl⟩,
          fun _ => rfl, .inl rfl⟩
      · exact .refl s
    · exact ⟨rfl, rfl, ⟨rfl, rfl, rfl⟩, ⟨rfl, rfl, rfl⟩, List.prefix_refl _, List.prefix_refl _, ⟨rfl, .inl rfl⟩,
        fun _ => rfl, .inl rfl⟩
  next =>
    rcases buildStep_next h with ⟨p, g, P, n, -, -, -, rfl⟩ | ⟨-, -, rfl⟩
    · cases g <;> exact ⟨rfl, rfl, ⟨rfl, rfl, rfl⟩, ⟨rfl, rfl, rfl⟩, List.prefix_refl _, List.prefix_refl _,
        ⟨rfl, .inl rfl⟩, fun _ => rfl, .inl rfl⟩
    · rw [forPositions_buildFrame]
      exact ⟨rfl, rfl, ⟨rfl, rfl, rfl⟩, ⟨rfl, rfl, rfl⟩, List.prefix_refl _, List.prefix_refl _, ⟨rfl, .inl rfl⟩,
        fun _ => rfl, .inl rfl⟩
  next =>
    rw [txStep_eq] at h
    obtain ⟨rfl, -⟩ := overScanned_next h
    exact ⟨rfl, rfl, ⟨rfl, rfl, rfl⟩, ⟨rfl, rfl, rfl⟩, List.prefix_append _ _, List.prefix_refl _, ⟨rfl, .inl rfl⟩,
      fun _ => rfl, .inl rfl⟩
  next =>
    injection h with h; subst h
    exact ⟨rfl, rfl, ⟨rfl, rfl, rfl⟩, ⟨rfl, rfl, rfl⟩, List.prefix_refl _, List.prefix_refl _, ⟨rfl, .inl rfl⟩,
      fun _ => rfl, .inl rfl⟩
  next hp =>
    obtain ⟨hf, h1, h2⟩ := classifyAll_scFrame s hp
    unfold classifyStep at h
    split at h
    · split at h
      next hd =>
        rw [← h2] at hd
        generalize classifyAll s = u at *
        refine hf.trans ?_ h2 (h1.trans hp.symm)
        unfold afterDiscoveryCycle at h
        split at h
        · cases h
        all_goals
          injection h with h; subst h
          split
          · exact ⟨rfl, rfl, ⟨rfl, rfl, rfl⟩, ⟨rfl, rfl, rfl⟩, List.prefix_refl _, List.prefix_refl _, ⟨rfl, .inl rfl⟩,
              fun _ => rfl, .inl rfl⟩
          · exact discoveryFail_frame _ _ (.inr ⟨h1, hd⟩)
      · injection h with h; subst h
        refine hf.trans ?_ h2 (h1.trans hp.symm)
        exact ⟨rfl, rfl, ⟨rfl, rfl, rfl⟩, ⟨rfl, rfl, rfl⟩, List.prefix_refl _, List.prefix_refl _, ⟨rfl, .inl rfl⟩,
          fun _ => rfl, .inl rfl⟩
    · obtain ⟨rfl, -⟩ := overScanned_next h
      exact .refl _
  next =>
    injection h with h; subst h
    obtain ⟨o, w, x, he, -, -, hx⟩ := healthEval_frame s.now s.chan
    unfold hystStep
    rw [he]
    refine ⟨rfl, rfl, ⟨rfl, rfl, rfl⟩, ⟨rfl, rfl, rfl⟩, List.prefix_refl _, List.prefix_refl _, ⟨rfl, ?_⟩, fun _ => rfl,
      .inl rfl⟩
    rcases hx with rfl | rfl
    · exact .inl rfl
    · exact .inr rfl
  next =>
    injection h with h; subst h
    unfold schedStep
    split <;> exact ⟨rfl, rfl, ⟨rfl, rfl, rfl⟩, ⟨rfl, rfl, rfl⟩, List.prefix_refl _, List.prefix_refl _, ⟨rfl, .inl rfl⟩,
      fun _ => rfl, .inl rfl⟩
  next hp =>
    injection h with h; subst h
    exact ⟨rfl, rfl, ⟨rfl, rfl, rfl⟩, ⟨rfl, rfl, rfl⟩, List.prefix_refl _, List.prefix_refl _, ⟨rfl, .inl rfl⟩,
      fun _ => rfl, .inr (.inl hp)⟩
  next =>
    injection h with h; subst h
    unfold settleStep
    split <;> exact ⟨rfl, rfl, ⟨rfl, rfl, rfl⟩, ⟨rfl, rfl, rfl⟩, List.prefix_refl _, List.prefix_refl _, ⟨rfl, .inl rfl⟩,
      fun _ => rfl, .inl rfl⟩
  next hp =>
    unfold dEvalStep at h
    split at h
    · cases h
    · split at h <;> injection h with h <;> subst h
      · exact discoveryFail_frame _ _ (.inl hp)
      · exact ⟨rfl, rfl, ⟨rfl, rfl, rfl⟩, ⟨rfl, rfl, rfl⟩, List.prefix_refl _, List.prefix_refl _, ⟨rfl, .inl rfl⟩,
          fun _ => rfl, .inr (.inr (.inl hp))⟩
  next =>
    injection h with h; subst h
    unfold settleStep
    split <;> exact ⟨rfl, rfl, ⟨rfl, rfl, rfl⟩, ⟨rfl, rfl, rfl⟩, List.prefix_refl _, List.prefix_refl _, ⟨rfl, .inl rfl⟩,
      fun _ => rfl, .inl rfl⟩
  next =>
    injection h with h; subst h
    exact ⟨rfl, rfl, ⟨rfl, rfl, rfl⟩, ⟨rfl, rfl, rfl⟩, List.prefix_refl _, List.prefix_append _ _, ⟨rfl, .inl rfl⟩,
      fun _ => rfl, .inl rfl⟩

/-- What a scheduled move can do: a step of SC, a host's command, an illegal word's answer, a waiting host's nothing, a
capture, the consumption of an event, or only time. -/
theorem moveStep_next {m : Move} {s t : State} (h : moveStep m s = .next t) :
    (∃ pick, m = .sc pick ∧ scStep pick s = .next t) ∨
    (∃ k w0 dw i, m = .host k w0 dw ∧ s.sc.discReq ≠ some k ∧ decode w0 dw = .ok i ∧
      exec i { s with host := k } = .next t) ∨
    (∃ k, t = { s with host := k, responses := s.responses ++ [⟨k, .illegalCommand, []⟩] }) ∨
    (∃ ps, t = { s with rxFifo := s.rxFifo ++ [ps] }) ∨ t = { s with evq := s.evq.tail } ∨ t = s := by
  cases m with
  | sc pick => exact .inl ⟨pick, rfl, h⟩
  | host k w0 dw =>
    simp only [moveStep, hostStep] at h
    split at h
    · injection h with h; exact .inr (.inr (.inr (.inr (.inr h.symm))))
    next hk =>
      split at h
      next i hi => exact .inr (.inl ⟨k, w0, dw, i, rfl, hk, hi, h⟩)
      · injection h with h; exact .inr (.inr (.inl ⟨k, h.symm⟩))
  | envPut ps => injection h with h; exact .inr (.inr (.inr (.inl ⟨ps, h.symm⟩)))
  | takeEvent => injection h with h; exact .inr (.inr (.inr (.inr (.inl h.symm))))
  | elapse => injection h with h; exact .inr (.inr (.inr (.inr (.inr h.symm))))

/-- A step under an admitted configuration: the schedule's next entry gives a move, its time passes, and the move is
made. -/
theorem step_eq_move {s : State} (h : s.cfg.wellFormed = true) :
    ∃ dt l d, step s = moveStep (nextInput s).1.move { s with inputs := l, draws := d, now := s.now + dt } := by
  unfold step scheduledStep nextInput
  rw [if_pos h]
  split <;> exact ⟨_, _, _, rfl⟩

/-- A step that answers a next state made the schedule's next move, under an admitted configuration. -/
theorem step_next {s t : State} (h : step s = .next t) :
    s.cfg.wellFormed = true ∧
    ∃ dt l d, moveStep (nextInput s).1.move { s with inputs := l, draws := d, now := s.now + dt } = .next t := by
  by_cases hw : s.cfg.wellFormed = true
  · obtain ⟨dt, l, d, he⟩ := step_eq_move hw
    exact ⟨hw, dt, l, d, he ▸ h⟩
  · simp [step, hw] at h

end Sys2Proof.Machine
end

