-- ==== Sys2Proof/Tests/Slice0.lean ====
section
/-! SUPPORT. Tests of the model against the vectors of 95_test_vectors.md and hand calculation from the rules, and one
witness per statement that has hypotheses. -/

namespace Sys2Proof.Tests

open Sys2Proof.Machine

/-! ### Small states -/

/-- Two live slots, SC in `p`, the channel enabled as `on` says. -/
def slots (on : Bool) (p : Phase) : State :=
  { State.reset with
    chan := { Channel.reset with admin := on, opstate := if on then 0 else 1, nsats := 2, scancount := 2 }
    sc := { Controller.reset 4 with phase := p } }

/-- A discovery under way for host 0, SC in `p`. -/
def discovering (p : Phase) (d : DStep) : State :=
  { State.reset with
    chan := { Channel.reset with discovering := true, scancount := 4 }
    sc := { Controller.reset 4 with phase := p, dstep := d, discReq := some 0 } }

/-- The two pulses of 95_test_vectors.md §4.3. -/
def p0 : Pulse := ⟨true, 2, false, 6⟩

def p1 : Pulse := ⟨true, 6, false, 2⟩

/-- The state a result answers, if it answers one. -/
def after (r : Result) : Option State :=
  match r with
  | .next t => some t
  | .fault _ => none
  | .refused _ => none

/-- The code and the words of the last response of a result. -/
def answered (r : Result) : Option (ResultCode × List Word) :=
  (after r).bind fun t => t.responses.getLast?.map fun x => (x.code, x.words)

/-! ### Decoding: the words of 95_test_vectors.md §4.4 -/

theorem test_decode_enable : decode 0x01000000 0 = .ok .enable := by decide

theorem test_decode_disable : decode 0x02000000 0 = .ok .disable := by decide

theorem test_decode_discover : decode 0x03000000 0 = .ok .discover := by decide

theorem test_decode_setThresholds : decode 0x04000000 0x00050002 = .ok (.setThresholds 5 2) := by decide

theorem test_decode_getStats : decode 0x05000001 0 = .ok (.getStats true) := by decide

theorem test_decode_getSlotCount : decode 0x06000000 0 = .ok .getSlotCount := by decide

theorem test_decode_getSlotHandle : decode 0x07010000 0 = .ok (.getSlotHandle 1) := by decide

theorem test_decode_setCtrlBlock : decode 0x08000001 0 = .ok (.setCtrlBlock true) := by decide

theorem test_decode_getChannelState : decode 0x09000000 0 = .ok .getChannelState := by decide

theorem test_decode_setActValue : decode 0x100000C8 0 = .ok (.setActValue 0 0 200) := by decide

theorem test_decode_setActMode : decode 0x11010305 0 = .ok (.setActMode 1 3 5) := by decide

theorem test_decode_setSlotEnable : decode 0x12000001 0 = .ok (.setSlotEnable 0 true) := by decide

theorem test_decode_setInvServerCrc : decode 0x13020001 0 = .ok (.setInvServerCrc 2 true) := by decide

theorem test_decode_setInvClientCrc : decode 0x14010001 0 = .ok (.setInvClientCrc 1 true) := by decide

theorem test_decode_readSensor : decode 0x20010000 0 = .ok (.readSensor 1) := by decide

theorem test_decode_readStatus : decode 0x21000000 0 = .ok (.readStatus 0) := by decide

theorem test_decode_getSlotStats : decode 0x22010001 0 = .ok (.getSlotStats 1 true) := by decide

theorem test_decode_readTxFrame : decode 0x23000000 0 = .ok (.readTxFrame 0) := by decide

theorem test_decode_readRxFrame : decode 0x24010000 0 = .ok (.readRxFrame 1) := by decide

theorem test_decode_undefined :
    [0x00000000, 0x0A000000, 0x15000000, 0x25000000, 0xFF000000].map (decode · 0) =
      [.error (.undefinedOpcode 0), .error (.undefinedOpcode 0x0A), .error (.undefinedOpcode 0x15),
       .error (.undefinedOpcode 0x25), .error (.undefinedOpcode 0xFF)] := by decide

theorem test_decode_reserved :
    [0x01000001, 0x01010000, 0x05000002, 0x10000400, 0x110000FF, 0x11000008, 0x12000002, 0x07000100].map (decode · 0) =
      [.error (.reservedField .enable), .error (.reservedField .enable), .error (.reservedField .getStats),
       .error (.reservedField .setActValue), .error (.reservedField .setActMode), .error (.reservedField .setActMode),
       .error (.reservedField .setSlotEnable), .error (.reservedField .getSlotHandle)] := by decide

theorem test_encode_two_words : encode (.setThresholds 5 2) = [0x04000000, 0x00050002] := by decide

theorem test_table_word : decodeTableWord 32 0x11010305 = some (.setActMode 1 3 5) := by decide

theorem test_table_word_two : decodeTableWord 64 0x0005000204000000 = some (.setThresholds 5 2) := by decide

/-! ### Well-formedness: one ill-formed term per check -/

theorem test_wf_vectors : Config.vectors.wellFormed = true := by decide

theorem test_wf_devices : { Config.vectors with maxDevices := 256 }.wellFormed = false := by decide

theorem test_wf_no_device : { Config.vectors with maxDevices := 0 }.wellFormed = false := by decide

theorem test_wf_interval : { Config.vectors with scanIntervalUs := 0 }.wellFormed = false := by decide

theorem test_wf_one : { Config.vectors with t1h := 8, t1l := 0 + 1 }.oneOk = false := by decide

theorem test_wf_zero : { Config.vectors with t0h := 4, t0l := 4 }.zeroOk = false := by decide

theorem test_wf_tail : { Config.vectors with selftestTail := 256 }.wellFormed = false := by decide

theorem test_wf_durations : { Config.vectors with t1l := 0, spMin := 6 }.wellFormed = false := by decide

theorem test_wf_arity : (AsmLine.mk .setActValue [0, 0]).arityOk = false := by decide

theorem test_wf_range : (AsmLine.mk .setActMode [1, 3, 8]).assemble = none := by decide

/-! ### CRC, codec and PHY: 95_test_vectors.md §4.1 to §4.3 -/

theorem test_crc_values :
    [crc4 ⟨0x80, 0, 0, 0, 0, 0, 0, 0⟩, crc4 ⟨1, 2, 3, 4, 5, 6, 7, 0⟩, crc4 ⟨0x12, 0x34, 0x56, 0x78, 0x9A, 0xBC, 0xDE, 0⟩] =
      [0x9, 0xC, 0x5] := by decide +kernel

theorem test_crc_store_keeps_high_nibble : (crcStore ⟨0, 0, 0, 0, 0, 0, 0, 0xF0⟩ true).b7 = 0xFF := by decide +kernel

theorem test_pack_modes :
    pack { Fields.zero with mode := ⟨1, 6, 3, 5⟩, enable := true } = ⟨0, 0, 0, 0, 0, 0xAF, 0x14, 0⟩ := by decide

theorem test_unpack_ignores_reserved :
    unpack ⟨0x5A, 4, 3, 2, 1, 0x68, 0x8E, 0xC2⟩ 0 =
      (⟨0x5A, ⟨1, 2, 3, 4⟩, ⟨0, 1, 2, 3⟩, true, true, false, false, false, 2⟩, true) := by decide

theorem test_phy_encode : phyEncode Config.vectors [0x01] 12 = ([p0, p0, p0, p0, p0, p0, p0, p1], true) := by decide

theorem test_phy_bounds :
    phyDecode Config.vectors (⟨true, 5, false, 2⟩ :: List.replicate 7 p0) 8 = .ok [0x80] 8 ∧
    phyDecode Config.vectors (⟨true, 3, false, 6⟩ :: List.replicate 7 p0) 8 = .ok [0x00] 8 := by decide

theorem test_phy_errors :
    phyDecode Config.vectors (⟨true, 3, false, 7⟩ :: List.replicate 7 p0) 8 = .symErr ∧
    phyDecode Config.vectors (⟨false, 6, true, 2⟩ :: List.replicate 7 p0) 8 = .symErr ∧
    phyDecode Config.vectors (List.replicate 8 p1 ++ [⟨true, 9, false, 0⟩]) 8 = .symErr := by decide

theorem test_phy_overrun : phyDecode Config.vectors (List.replicate 10 p1) 8 = .ok [0xFF] 10 := by decide

/-! ### One command, one step: 95_test_vectors.md §4.4 -/

theorem test_step_getStats :
    answered (step (State.reset.withFetchWord 32 0x05000001)) = some (.ok, List.replicate 16 0) := by decide +kernel

theorem test_step_illegal :
    answered (step (State.reset.withFetchWord 32 0x10000400)) = some (.illegalCommand, []) := by decide +kernel

theorem test_step_noSuchSlot :
    answered (step (State.reset.withFetchWord 32 0x20000000)) = some (.noSuchSlot, []) := by decide +kernel

theorem test_step_channelState :
    answered (step (State.reset.withFetchWord 32 0x09000000)) = some (.ok, [0x00000100, 0, 0]) := by decide +kernel

theorem test_step_disable :
    answered (step (State.reset.withFetchWord 32 0x02000000)) = some (.wrongState, []) := by decide +kernel

theorem test_step_enable :
    (after (step (State.reset.withFetchWord 32 0x01000000))).map (fun t => (t.chan.admin, t.chan.opstate, t.sc.phase)) =
      some (true, 0, .wait) := by decide +kernel

theorem test_step_discover :
    (after (step (State.reset.withFetchWord 32 0x03000000))).map (fun t => (t.sc.phase, t.sc.discReq, t.responses)) =
      some (.dStart, some 0, []) := by decide +kernel

theorem test_step_setThresholds :
    (after (step (State.reset.withFetchWord 64 0x0005000204000000))).map (fun t => (t.chan.thHigh, t.chan.thLow)) =
      some (5, 2) := by decide +kernel

theorem test_step_setCtrlBlock :
    (after (step (State.reset.withFetchWord 32 0x08000001))).map (fun t => t.chan.opstate) = some 0b101 := by
  decide +kernel

theorem test_step_getSlotCount :
    answered (step ((slots true .wait).withFetchWord 32 0x06000000)) = some (.ok, [2]) := by decide +kernel

theorem test_step_getSlotHandle :
    answered (step ((slots true .wait).withFetchWord 32 0x07020000)) = some (.noSuchSlot, []) := by decide +kernel

theorem test_step_setActValue :
    ((after (step ((slots true .wait).withFetchWord 32 0x100000C8))).bind (·.pos? 0)).map (fun P => P.tx.actVal) =
      some ⟨200, 0, 0, 0⟩ := by decide +kernel

theorem test_step_setActMode :
    ((after (step ((slots true .wait).withFetchWord 32 0x11010305))).bind (·.pos? 1)).map (fun P => P.tx.actMode) =
      some ⟨0, 0, 0, 5⟩ := by decide +kernel

theorem test_step_setSlotEnable :
    ((after (step ((slots true .wait).withFetchWord 32 0x12000001))).bind (·.pos? 0)).map (fun P => (P.tx.enable, P.tx.txDirty)) =
      some (true, true) := by decide +kernel

theorem test_step_setInvServerCrc :
    ((after (step ((slots true .wait).withFetchWord 32 0x13010001))).bind (·.pos? 1)).map (fun P => (P.tx.invSrv, P.tx.invCli)) =
      some (true, false) := by decide +kernel

theorem test_step_setInvClientCrc :
    ((after (step ((slots true .wait).withFetchWord 32 0x14010001))).bind (·.pos? 1)).map (fun P => (P.tx.invSrv, P.tx.invCli)) =
      some (false, true) := by decide +kernel

theorem test_step_readSensor :
    answered (step (((slots true .wait).setPos 1 { Position.reset with rxm := { Fields.zero with sensor := 0x21 } }).withFetchWord
      32 0x20010000)) = some (.ok, [0x21]) := by decide +kernel

/-- 95_test_vectors.md §6, the read of position 0 after P1. -/
theorem test_step_readStatus :
    answered (step (((slots false .stopped).setPos 0 { Position.reset with
      tx := { TxRegs.reset with startMark := true }, srvState := .deactivating, srvCount := 2 }).withFetchWord 32 0x21000000)) =
      some (.ok, [0, 0x00010008, 0x00000202]) := by decide +kernel

theorem test_step_getSlotStats :
    ((after (step (((slots true .wait).setPos 1 { Position.reset with sctr := ⟨1, 2, 3, 4, 5⟩ }).withFetchWord 32
      0x22010001))).map fun t => (t.responses.map (·.words), (t.pos? 1).map (·.sctr))) =
      some ([[1, 2, 3, 4, 5]], some ⟨0, 0, 0, 0, 0⟩) := by decide +kernel

/-- 95_test_vectors.md §6, the frame read after P2. -/
theorem test_step_readTxFrame :
    answered (step ({ slots true .wait with txBuf := [(4, 0xC8), (6, 1), (7, 7)] }.withFetchWord 32 0x23000000)) =
      some (.ok, [0x00000000, 0xC8000107]) := by decide +kernel

theorem test_step_readRxFrame :
    answered (step ({ slots true .wait with rxBuf := [(8, 0x21), (15, 4)] }.withFetchWord 32 0x24010000)) =
      some (.ok, [0x21000000, 0x00000004]) := by decide +kernel

theorem test_discovery_gate :
    answered (exec (.setActValue 7 0 1) (discovering .wait .probe)) = some (.wrongState, []) := by decide +kernel

/-! ### Steps of SC: 95_test_vectors.md §4.6 to §4.9 -/

/-- An exact deadline is no violation; a late step is one, and restarts from now. -/
theorem test_sched :
    (after (scStep 0 { slots true .sched with now := 1250000, chan := { (slots true .sched).chan with nextstart := 1250000 } })).map
      (fun t => (t.chan.nextstart, t.chan.ctr.scantv)) = some (1250000, 0) ∧
    (after (scStep 0 { slots true .sched with now := 2600000, chan := { (slots true .sched).chan with nextstart := 1950000 } })).map
      (fun t => (t.chan.nextstart, t.chan.ctr.scantv)) = some (2600000, 1) := by decide +kernel

/-- `TH_HIGH = 3`, `TH_LOW = 4`: blocked and unblocked in one step at a window boundary; just before it, blocked. -/
theorem test_health :
    (healthEval 1000000 { Channel.reset with thHigh := 3, thLow := 4, sec := { Counters.zero with wd := 3 } }).errBlk = false ∧
    (healthEval 999999 { Channel.reset with thHigh := 3, thLow := 4, sec := { Counters.zero with wd := 3 } }).errBlk = true := by
  decide +kernel

/-- 8 pulses where 128 are expected: one SIZE count, and two events. -/
theorem test_classify_short :
    (after (scStep 0 { slots true .classify with
      sc := { (slots true .classify).sc with capture := List.replicate 8 p0 } })).map
        (fun t => (t.chan.ctr.rxsize, t.chan.ctr.rxovr, t.evq)) =
      some (1, 0, [.statusUpdate 0 0b00010, .statusUpdate 1 0b00010]) := by decide +kernel

/-- The probe's all-zero pulses: no satellite. -/
theorem test_dEval_none :
    (after (scStep 0 (discovering .dEval .probe))).map (fun t => (t.chan.nsats, t.sc.phase)) = some (0, .build) := by
  decide +kernel

/-! ### Witnesses: for each statement with hypotheses, a state and operands that meet them, clause by clause -/

theorem exists_next {r : Result} (h : (after r).isSome = true) : ∃ t, r = .next t := by
  cases r with
  | next t => exact ⟨t, rfl⟩
  | fault => cases h
  | refused => cases h

/-- A schedule with one entry. -/
def scheduled (m : Move) (s : State) : State := { s with inputs := [⟨7, m⟩] }

theorem test_hyp_AcceptedWordsAreEncodings : decode 0x04000000 0xFFFF0001 = .ok (.setThresholds 0xFFFF 1) := by decide

theorem test_hyp_OpcodeRowsDisjoint :
    ⟨.getStats, 0x05000000, 0xFFFFFFFE⟩ ∈ opcodeMap ∧ (0x05000001 : Word) &&& 0xFFFFFFFE = 0x05000000 := by decide

theorem test_hyp_AssemblyIsFaithful :
    (AsmLine.mk .setActMode [255, 3, 7]).assemble = some (.setActMode 255 3 7) := by decide

theorem test_hyp_StepRunsDecodedCommand :
    (slots true .wait).cfg.wellFormed = true ∧
    (scheduled (.host 3 0x11010305 0) (slots true .wait)).inputs = [⟨7, .host 3 0x11010305 0⟩] ∧
    (slots true .wait).sc.discReq ≠ some 3 ∧ decode 0x11010305 0 = .ok (.setActMode 1 3 5) := by decide

theorem test_hyp_CommandsNotExecuted :
    ((scheduled (.host 1 0x10000400 0) (discovering .wait .probe)).sc.discReq ≠ some 1 ∧
      decode 0x10000400 0 = .error (.reservedField .setActValue)) ∧
    (scheduled (.host 0 0x09000000 0) (discovering .wait .probe)).sc.discReq = some 0 ∧
    (discovering .wait .probe).cfg.wellFormed = true := by decide

theorem test_hyp_StepRunsScheduledMove :
    (slots true .wait).cfg.wellFormed = true ∧ (scheduled (.sc 4) (slots true .wait)).inputs = [⟨7, .sc 4⟩] ∧
    (scheduled (.envPut [p0]) (slots true .wait)).inputs = [⟨7, .envPut [p0]⟩] ∧
    (scheduled .takeEvent (slots true .wait)).inputs = [⟨7, .takeEvent⟩] ∧
    (scheduled .elapse (slots true .wait)).inputs = [⟨7, .elapse⟩] := by decide

theorem test_hyp_BadConfigurationRefused :
    ¬ (1 ≤ { Config.vectors with maxDevices := 256 }.maxDevices ∧ { Config.vectors with maxDevices := 256 }.maxDevices ≤ 255) ∧
    ¬ 0 < { Config.vectors with scanIntervalUs := 0 }.scanIntervalUs ∧
    ¬ Config.vectors.lhMin ≤ { Config.vectors with t1h := 4 }.t1h ∧
    Config.vectors.lhMin ≤ { Config.vectors with t0h := 5 }.t0h ∧
    ¬ { Config.vectors with selftestTail := 256 }.selftestTail ≤ 255 := by decide

theorem test_hyp_WrongStateAnswers :
    (discovering .build .probe).chan.discovering = true ∧ (Instr.readSensor 9).mnemonic ≠ .getStats ∧
    (Instr.readSensor 9).mnemonic ≠ .getChannelState := by decide

theorem test_hyp_NoSuchSlotAnswers :
    (slots true .wait).chan.discovering = false ∧ (Instr.setActValue 2 0 1).slot? = some 2 ∧
    (slots true .wait).chan.nsats.toNat ≤ (2 : Byte).toNat := by decide

theorem test_hyp_FailedCommandChangesNothing :
    exec (.readSensor 0) State.reset = .next (State.reset.answer .noSuchSlot []) ∧
    (State.reset.answer .noSuchSlot []).responses = State.reset.responses ++ [⟨0, .noSuchSlot, []⟩] ∧
    ResultCode.noSuchSlot ≠ .ok := ⟨rfl, by decide, by decide⟩

/-- From reset; and a disabled channel whose cycle has not ended. -/
theorem test_hyp_EnableStartsScanning :
    (State.reset.chan.discovering = false ∧ State.reset.chan.admin = false ∧ State.reset.sc.phase = .stopped) ∧
    ¬ ((slots false .wait).chan.discovering = false ∧ (slots false .wait).chan.admin = false ∧
      (slots false .wait).sc.phase = .stopped) := by decide

theorem test_hyp_DiscoverStartsWithoutResponse :
    ((slots false .stopped).chan.discovering = false ∧ (slots false .stopped).chan.admin = false ∧
      (slots false .stopped).sc.phase = .stopped) ∧
    ¬ ((slots true .stopped).chan.discovering = false ∧ (slots true .stopped).chan.admin = false ∧
      (slots true .stopped).sc.phase = .stopped) := by decide

theorem test_hyp_DisableClearsAdmin :
    ((slots true .hyst).chan.discovering = false ∧ (slots true .hyst).chan.admin = true) ∧
    ¬ ((slots false .hyst).chan.discovering = false ∧ (slots false .hyst).chan.admin = true) := by decide

theorem test_hyp_SetThresholdsFromDataWord :
    (slots true .tx).chan.discovering = false ∧ (discovering .tx .probe).chan.discovering = true := by decide

/-- The last live slot of two, and the first address that is not live. -/
theorem test_hyp_CountHandleAndControlBlock :
    (slots true .tx).chan.discovering = false ∧ (1 : Byte).toNat < (slots true .tx).chan.nsats.toNat ∧
    ((slots true .tx).pos? (1 : Byte).toNat).isSome = true ∧ (slots true .tx).chan.nsats.toNat ≤ (2 : Byte).toNat ∧
    (discovering .tx .probe).chan.discovering = true := by decide

/-- For SET_ACT_VALUE, SET_ACT_MODE, the flag writes, READ_SENSOR, READ_STATUS and GET_SLOT_STATS, the last live slot of
two. -/
theorem test_hyp_SetActValueWritesOneActuator :
    (slots true .build).chan.discovering = false ∧ (1 : Byte).toNat < (slots true .build).chan.nsats.toNat ∧
    (slots true .build).pos? (1 : Byte).toNat = some .reset := by decide

theorem test_hyp_SetActModeWritesOneMode :
    (slots true .tx).chan.discovering = false ∧ (0 : Byte).toNat < (slots true .tx).chan.nsats.toNat ∧
    (slots true .tx).pos? (0 : Byte).toNat = some .reset := by decide

theorem test_hyp_FlagWritesWriteOneFlag :
    (slots true .rx).chan.discovering = false ∧ (1 : Byte).toNat < (slots true .rx).chan.nsats.toNat ∧
    (slots true .rx).pos? (1 : Byte).toNat = some .reset := by decide

theorem test_hyp_SensorAndStatusWords :
    (slots false .stopped).chan.discovering = false ∧ (1 : Byte).toNat < (slots false .stopped).chan.nsats.toNat ∧
    (slots false .stopped).pos? (1 : Byte).toNat = some .reset := by decide

theorem test_hyp_SlotStatsWordsAndReset :
    (slots true .wait).chan.discovering = false ∧ (0 : Byte).toNat < (slots true .wait).chan.nsats.toNat ∧
    (slots true .wait).pos? (0 : Byte).toNat = some .reset := by decide

theorem test_hyp_FrameReadsAnswerTheBuffer :
    (slots true .wait).chan.discovering = false ∧ (1 : Byte).toNat < (slots true .wait).chan.nsats.toNat ∧
    ((slots true .wait).pos? (1 : Byte).toNat).isSome = true ∧ (1 : Byte).toNat < (slots true .wait).cap := by decide

theorem test_hyp_FieldsAHostCannotWrite :
    (∃ t, exec (.setActValue 1 2 3) (slots true .wait) = .next t ∧ (t.pos? 1).isSome = true) ∧
    (slots true .wait).pos? 1 = some .reset := ⟨⟨_, rfl, rfl⟩, by decide⟩

theorem test_hyp_CrcDetectsSingleBitErrors :
    crcVerify ⟨0, 0, 0, 0, 0xC8, 0, 1, 0x37⟩ = true ∧ crcVerify ((Frame.mk 0 0 0 0 0xC8 0 1 0x37).xor (.oneBit 55)) = false := by
  decide +kernel

theorem test_hyp_PhyRoundTrip : Config.vectors.wellFormed = true := by decide

/-- A bad duration, a bad period past the expected bits, and a wrong first level. -/
theorem test_hyp_BadPulseFailsTheCapture :
    (⟨true, 4, false, 4⟩ ∈ [p1, ⟨true, 4, false, 4⟩] ∧
      ¬ (Config.vectors.lhMin ≤ 4 ∧ 4 ≤ Config.vectors.lhMax) ∧ ¬ (Config.vectors.shMin ≤ 4 ∧ 4 ≤ Config.vectors.shMax)) ∧
    ¬ (Config.vectors.spMin ≤ 3 + 7 ∧ 3 + 7 ≤ Config.vectors.spMax) ∧
    (Pulse.mk false 6 true 2).level0 = false := by decide

theorem test_hyp_GoodCaptureDecodes :
    (∀ q rest, [p1, p0] = q :: rest → q.level0 = true) ∧
    ∀ q ∈ [p1, p0], ((Config.vectors.lhMin ≤ q.dur0 ∧ q.dur0 ≤ Config.vectors.lhMax) ∨
        (Config.vectors.shMin ≤ q.dur0 ∧ q.dur0 ≤ Config.vectors.shMax)) ∧
      Config.vectors.spMin ≤ q.dur0 + q.dur1 ∧ q.dur0 + q.dur1 ≤ Config.vectors.spMax := by
  refine ⟨fun q rest h => ?_, by decide⟩
  injection h with h
  rw [← h]
  rfl

/-- Disabled; due exactly now; not yet due. -/
theorem test_hyp_WaitStepStartsOrStops :
    ((slots false .wait).sc.phase = .wait ∧ (slots false .wait).chan.admin = false) ∧
    ((slots true .wait).sc.phase = .wait ∧ (slots true .wait).chan.admin = true ∧
      (slots true .wait).chan.nextstart ≤ (slots true .wait).now) ∧
    ¬ { (slots true .wait).chan with nextstart := 1 }.nextstart ≤ (slots true .wait).now := by decide

/-- A build over two positions, one of each group. -/
def building : State := { slots true .build with sc := { (slots true .build).sc with pending := pendingReads 2 } }

theorem test_hyp_BuildReadCopiesOneGroup :
    building.sc.phase = .build ∧ building.sc.pending[3 % building.sc.pending.length]? = some (1, .values) ∧
    building.sc.pending[4 % building.sc.pending.length]? = some (1, .modes) ∧
    building.sc.pending[11 % building.sc.pending.length]? = some (1, .flags) ∧
    building.pos? 1 = some .reset ∧ building.sc.snap[1]? = some .reset ∧ (1, Group.flags) ∈ building.sc.pending := by
  decide

/-- Both sides of the boundary `k = TAIL`, `TAIL = 0`, and both kinds of client countdown. -/
theorem test_hyp_SelfTestTailLength :
    Config.vectors.selftestTail ≤ 255 ∧ 0 < 2 ∧ 2 ≤ Config.vectors.selftestTail ∧ ¬ 3 ≤ Config.vectors.selftestTail ∧
    { Config.vectors with clientCountdownShared := false }.clientCountdownShared = false ∧
    Config.vectors.clientCountdownShared = true ∧ { Config.vectors with selftestTail := 0 }.selftestTail ≤ 255 := by decide

theorem test_hyp_BuildCompletionWritesFrames :
    (slots true .build).sc.phase = .build ∧ (slots true .build).sc.pending = [] ∧ (slots true .build).txBuf.wf ∧
    (slots true .build).scanned ≤ (slots true .build).positions.length ∧
    (slots true .build).scanned ≤ (slots true .build).sc.snap.length ∧
    (slots true .build).scanned ≤ (slots true .build).cap ∧ 1 < (slots true .build).scanned := by decide

theorem test_hyp_TransmitTrainLayout :
    (slots true .tx).sc.phase = .tx ∧ (slots true .tx).scanned ≤ (slots true .tx).positions.length ∧
    (slots true .tx).scanned ≤ (slots true .tx).sc.snap.length ∧ (slots true .tx).scanned ≤ (slots true .tx).cap ∧
    1 < (slots true .tx).scanned := by decide

theorem test_hyp_ReceiveTakesOldestCapture :
    ((slots true .rx).sc.phase = .rx ∧ (slots true .rx).rxFifo = []) ∧
    { slots true .rx with rxFifo := [[p0], [p1]] }.rxFifo = [p0] :: [[p1]] := by decide

/-- `s` with a capture taken. -/
def captured (ps : List Pulse) : State :=
  { slots true .classify with sc := { (slots true .classify).sc with capture := ps } }

/-- A symbol error, a capture one pulse short, one too long, and a good one. -/
theorem test_hyp_CycleLevelErrors :
    (captured []).rxBuf.wf ∧
    phyDecode Config.vectors (⟨true, 4, false, 4⟩ :: List.replicate 127 p0) (64 * (captured []).scanned) = .symErr ∧
    phyDecode Config.vectors (List.replicate 127 p0) (64 * (captured []).scanned) = .ok (List.replicate 15 0) 127 ∧
    phyDecode Config.vectors (List.replicate 129 p0) (64 * (captured []).scanned) = .ok (List.replicate 16 0) 129 ∧
    phyDecode Config.vectors (List.replicate 128 p0) (64 * (captured []).scanned) = .ok (List.replicate 16 0) 128 := by
  decide +kernel

theorem test_hyp_ClassifiedPositionRecord :
    1 < (captured []).scanned ∧ (captured []).pos? 1 = some .reset ∧
    (4, SlotCounters.wd) ∈ [(0, SlotCounters.sym), (1, SlotCounters.size), (2, SlotCounters.crc), (3, SlotCounters.rcrc),
      (4, SlotCounters.wd)] := ⟨by decide, by decide, by simp⟩

/-- Also for the events of a classify step; the second clause needs a good capture. -/
theorem test_hyp_NewErrorsCountOncePerPosition :
    (captured []).scanned ≤ (captured []).positions.length ∧
    (4, Counters.wd) ∈ [(2, Counters.rxcrc), (3, Counters.rcrc), (4, Counters.wd)] ∧
    (classifyAll (captured (List.replicate 128 p0))).sc.cycErr = .none := ⟨by decide, by simp, by decide +kernel⟩

theorem test_hyp_ClassifyEvents :
    (captured [p0]).scanned ≤ (captured [p0]).positions.length ∧ (captured [p0]).chan.discovering = false ∧
    (classifyAll (captured [p0])).evq.length = 2 := by decide +kernel

/-- A position that is not scanned; outside discovery; the probe and the cleanup cycle, each with an error; the settle delays. -/
theorem test_hyp_ClassifyContinues :
    ((slots true .classify).scanned ≤ 2 ∧ (slots true .classify).pos? 2 = some .reset) ∧
    ((slots true .classify).sc.phase = .classify ∧ (slots true .classify).scanned ≤ (slots true .classify).positions.length ∧
      (slots true .classify).scanned ≤ (slots true .classify).sc.snap.length ∧
      (slots true .classify).scanned ≤ (slots true .classify).cap ∧ (slots true .classify).chan.discovering = false) ∧
    ((discovering .classify .probe).chan.discovering = true ∧ (discovering .classify .probe).sc.dstep = .probe ∧
      (classifyAll (discovering .classify .probe)).sc.cycErr ≠ .none) ∧
    (classifyAll { discovering .classify .clean with
      sc := { (discovering .classify .clean).sc with capture := List.replicate 256 p0 } }).sc.cycErr = .none ∧
    (discovering .dSettle1 .probe).sc.phase = .dSettle1 ∧ (discovering .dSettle2 .clean).sc.phase = .dSettle2 := by
  decide +kernel

/-- The sum and the two tests are given by equations, so the phase is the only condition; here with a blocked sum at a
window boundary. -/
theorem test_hyp_HealthStep :
    (slots true .hyst).sc.phase = .hyst ∧ errorSum { Counters.zero with txund := 9, wd := 5 } = 5 ∧
    decide ((1000000 : Int) ≤ (1000000 : Int) - (0 : Int)) = true ∧
    decide ((1000000 : Int) ≤ (999999 : Int) - (0 : Int)) = false := by decide

theorem test_hyp_ScheduleStep : (slots true .sched).sc.phase = .sched := by decide

theorem test_hyp_DiscoveryStart :
    (slots false .dStart).sc.phase = .dStart ∧ (slots false .dStart).cfg.wellFormed = true := by decide

/-- The guard position without and with a remote-CRC error. -/
theorem test_hyp_DiscoveryEvaluation :
    ((discovering .dEval .probe).sc.phase = .dEval ∧ (discovering .dEval .probe).cfg.wellFormed = true ∧
      (discovering .dEval .probe).positions.length = (discovering .dEval .probe).cap ∧
      (discovering .dEval .probe).pos? (discovering .dEval .probe).cfg.maxDevices = some .reset ∧
      Position.reset.rxm.remoteCrcError = false) ∧
    (((discovering .dEval .probe).setPos 3 { Position.reset with rxm := { Fields.zero with remoteCrcError := true } }).pos? 3).map
      (fun P => P.rxm.remoteCrcError) = some true := by decide

theorem test_hyp_DiscoveryFailure : (discovering .classify .probe).sc.discReq = some 0 := by decide

theorem test_hyp_DiscoveryFinish :
    (discovering .dFinish .clean).sc.phase = .dFinish ∧ (discovering .dFinish .clean).sc.discReq = some 0 ∧
    (discovering .dFinish .clean).pos? 3 = some .reset := by decide

theorem test_hyp_ResetMeetsInvariant : { Config.vectors with maxDevices := 255 }.wellFormed = true := by decide

theorem reset_pos {s : State} {n p : Nat} {P : Position} (h : s.positions = List.replicate n .reset)
    (hP : s.pos? p = some P) : P = .reset := by
  rw [State.pos?, h, List.getElem?_replicate] at hP
  split at hP
  · exact (Option.some.inj hP).symm
  · cases hP

/-- Two live slots being scanned meet the invariant. -/
theorem test_inv_slots : (slots true .wait).Inv where
  cfgOk := by decide
  positionsLen := rfl
  snapLen := rfl
  disAdmin := by decide
  scanIdle := fun _ => rfl
  scanBusy := fun h => nomatch h
  nsatsLe := by decide
  unliveReset := fun _ _ _ _ hP => reset_pos rfl hP
  unliveBytes := fun _ _ _ => ⟨rfl, rfl⟩
  bufferEnd := fun _ _ => ⟨rfl, rfl⟩
  adminIdle := fun _ => rfl
  txWf := by decide
  rxWf := by decide
  dstepIff := by decide
  phaseIn := by decide
  phaseOut := by decide
  idleDisabled := by decide
  pendingBuild := by decide
  pendingScanned := by decide
  requestIff := by decide

/-- A discovery at its evaluation meets the invariant. -/
theorem test_inv_discovering : (discovering .dEval .probe).Inv where
  cfgOk := by decide
  positionsLen := rfl
  snapLen := rfl
  disAdmin := by decide
  scanIdle := fun h => nomatch h
  scanBusy := fun _ => rfl
  nsatsLe := by decide
  unliveReset := fun h => nomatch h
  unliveBytes := fun h => nomatch h
  bufferEnd := fun _ _ => ⟨rfl, rfl⟩
  adminIdle := fun h => nomatch h
  txWf := by decide
  rxWf := by decide
  dstepIff := by decide
  phaseIn := by decide
  phaseOut := by decide
  idleDisabled := by decide
  pendingBuild := by decide
  pendingScanned := by decide
  requestIff := by decide

theorem test_hyp_EveryStepKeepsInvariant : ∃ s t, s.Inv ∧ step s = .next t ∧ s.sc.phase = .wait := by
  have h : (scheduled (.sc 0) (slots true .wait)).Inv :=
    { cfgOk := test_inv_slots.cfgOk, positionsLen := test_inv_slots.positionsLen, snapLen := test_inv_slots.snapLen
      disAdmin := test_inv_slots.disAdmin, scanIdle := test_inv_slots.scanIdle, scanBusy := test_inv_slots.scanBusy
      nsatsLe := test_inv_slots.nsatsLe, unliveReset := test_inv_slots.unliveReset
      unliveBytes := test_inv_slots.unliveBytes, bufferEnd := test_inv_slots.bufferEnd
      adminIdle := test_inv_slots.adminIdle, txWf := test_inv_slots.txWf, rxWf := test_inv_slots.rxWf
      dstepIff := test_inv_slots.dstepIff, phaseIn := test_inv_slots.phaseIn, phaseOut := test_inv_slots.phaseOut
      idleDisabled := test_inv_slots.idleDisabled, pendingBuild := test_inv_slots.pendingBuild
      pendingScanned := test_inv_slots.pendingScanned, requestIff := test_inv_slots.requestIff }
  obtain ⟨t, ht⟩ := exists_next (r := step (scheduled (.sc 0) (slots true .wait))) (by decide +kernel)
  exact ⟨_, t, h, ht, rfl⟩

/-- Also the witness of the invariant premise alone. -/
theorem test_hyp_NoRunTimeFault : ∃ s : State, s.Inv ∧ s.chan.discovering = true :=
  ⟨_, test_inv_discovering, rfl⟩

theorem test_hyp_TimeConfigurationAndLogs : ∃ t, step (scheduled (.sc 0) (slots true .tx)) = .next t ∧ t.txLog.length = 1 := by
  obtain ⟨t, ht⟩ := exists_next (r := step (scheduled (.sc 0) (slots true .tx))) (by decide +kernel)
  refine ⟨t, ht, ?_⟩
  have h : (after (step (scheduled (.sc 0) (slots true .tx)))).map (·.txLog.length) = some 1 := by decide +kernel
  rw [ht] at h
  exact Option.some.inj h

theorem test_hyp_UnderrunCountersStayZero :
    (slots true .tx).chan.ctr.txund = 0 ∧ (slots true .tx).chan.sec.txund = 0 ∧
    ∃ t, step (scheduled (.sc 0) (slots true .tx)) = .next t :=
  ⟨by decide, by decide, exists_next (by decide +kernel)⟩

theorem test_hyp_NoEventsDuringDiscovery :
    (discovering .classify .probe).chan.discovering = true ∧
    ∃ t, step (scheduled (.sc 0) (discovering .classify .probe)) = .next t :=
  ⟨by decide, exists_next (by decide +kernel)⟩

theorem test_hyp_OnlyDiscoveryChangesSlotCount :
    ∃ t, step (scheduled (.sc 0) (slots false .dStart)) = .next t ∧ t.chan.nsats ≠ (slots false .dStart).chan.nsats := by
  obtain ⟨t, ht⟩ := exists_next (r := step (scheduled (.sc 0) (slots false .dStart))) (by decide +kernel)
  refine ⟨t, ht, ?_⟩
  have h : (after (step (scheduled (.sc 0) (slots false .dStart)))).map (·.chan.nsats) = some 0 := by decide +kernel
  rw [ht] at h
  have h0 : t.chan.nsats = 0 := Option.some.inj h
  rw [h0]
  decide

end Sys2Proof.Tests
end

/-! The family 00_scope.md: the schedule (R6), the admission of a configuration (R8), and what no step takes back. -/

namespace Sys2Proof.Machine

/-! ### The scheduled move (R6) -/

/-- Under an admitted configuration a step makes the move the schedule lists first, after that entry's time (log 4). -/
theorem step_eq_moveStep_of_inputs {s : State} {dt : Nat} {m : Move} {rest : List Input}
    (hw : s.cfg.wellFormed = true) (hi : s.inputs = ⟨dt, m⟩ :: rest) :
    step s = moveStep m { s with inputs := rest, now := s.now + dt } := by
  simp only [step, if_pos hw, scheduledStep, nextInput, hi]

/-- Settles O8: the listed entry's move is made, and each of the four moves is its meaning in `moveStep`. -/
theorem stepRunsScheduledMove : Obligations.StepRunsScheduledMove := by
  intro s dt rest hw
  refine ⟨fun pick hi => ?_, fun c hi => ?_, fun hi => ?_, fun hi => ?_⟩ <;>
    rw [step_eq_moveStep_of_inputs hw hi] <;> rfl

/-! ### The admission of a configuration (R8) -/

/-- The admitted configurations in numbers: the five conditions of R8, and the positive durations of R7 (log 3). -/
theorem wellFormed_iff (c : Config) :
    c.wellFormed = true ↔
      (1 ≤ c.maxDevices ∧ c.maxDevices ≤ 255) ∧ 0 < c.scanIntervalUs ∧
      (c.lhMin ≤ c.t1h ∧ c.t1h ≤ c.lhMax ∧ c.spMin ≤ c.t1h + c.t1l ∧ c.t1h + c.t1l ≤ c.spMax) ∧
      (c.shMin ≤ c.t0h ∧ c.t0h ≤ c.shMax ∧ ¬ (c.lhMin ≤ c.t0h ∧ c.t0h ≤ c.lhMax) ∧
        c.spMin ≤ c.t0h + c.t0l ∧ c.t0h + c.t0l ≤ c.spMax) ∧
      c.selftestTail ≤ 255 ∧ (0 < c.t0h ∧ 0 < c.t0l ∧ 0 < c.t1h ∧ 0 < c.t1l) := by
  simp [Config.wellFormed, Config.devicesOk, Config.intervalOk, Config.oneOk, Config.zeroOk, Config.tailOk,
    Config.durationsOk, and_assoc, imp_iff_not_or]

theorem step_refused_of_not_wellFormed {s : State} (hw : ¬ s.cfg.wellFormed = true) :
    step s = .refused .badConfiguration := if_neg hw

/-- Settles O9: an admitted configuration meets the five conditions, so one that breaks any of them is refused. -/
theorem badConfigurationRefused : Obligations.BadConfigurationRefused := by
  intro s hbad
  refine step_refused_of_not_wellFormed fun hw => hbad ?_
  obtain ⟨hdev, hint, hone, hzero, htail, -⟩ := (wellFormed_iff s.cfg).1 hw
  exact ⟨hdev, hint, hone, hzero, htail⟩

/-! ### What no step takes back (R6, R7, R32) -/

/-- What no move does: it takes no time of its own, keeps the configuration, and takes back no train and no response. -/
structure MoveFrame (s t : State) : Prop where
  now : t.now = s.now
  cfg : t.cfg = s.cfg
  txLog : s.txLog <+: t.txLog
  responses : s.responses <+: t.responses

theorem MoveFrame.refl (s : State) : MoveFrame s s :=
  ⟨rfl, rfl, List.prefix_refl _, List.prefix_refl _⟩

theorem ScFrame.moveFrame {s t : State} (h : ScFrame s t) : MoveFrame s t :=
  ⟨h.now, h.cfg, h.txLog, h.responses⟩

/-- A command adds one response to the log, except DISCOVER, which answers later (R283). -/
theorem exec_moveFrame {i : Instr} {s t : State} (h : exec i s = .next t) : MoveFrame s t := by
  rcases exec_next h with ⟨code, words, rfl⟩ | ⟨-, -, -, -, rfl⟩ | ⟨-, -, -, rfl⟩ | ⟨-, -, -, -, rfl⟩ |
    ⟨high, low, -, rfl⟩ | ⟨v, -, rfl⟩ | ⟨words, rfl⟩ | ⟨p, P, Q, words, -, -, -, -, rfl⟩
  case inr.inr.inr.inl => exact ⟨rfl, rfl, List.prefix_refl _, List.prefix_refl _⟩
  all_goals exact ⟨rfl, rfl, List.prefix_refl _, List.prefix_append _ _⟩

/-- Every move of every agent has `MoveFrame`. -/
theorem moveStep_frame {m : Move} {s t : State} (h : moveStep m s = .next t) : MoveFrame s t := by
  rcases moveStep_next h with ⟨pick, -, hsc⟩ | ⟨k, w0, dw, i, -, -, -, hexec⟩ | ⟨k, rfl⟩ | ⟨ps, rfl⟩ | rfl | rfl
  · exact (scStep_frame hsc).moveFrame
  · obtain ⟨hnow, hcfg, htx, hresp⟩ := exec_moveFrame hexec
    exact ⟨hnow, hcfg, htx, hresp⟩
  · exact ⟨rfl, rfl, List.prefix_refl _, List.prefix_append _ _⟩
  · exact ⟨rfl, rfl, List.prefix_refl _, List.prefix_refl _⟩
  · exact ⟨rfl, rfl, List.prefix_refl _, List.prefix_refl _⟩
  · exact .refl _

/-- Settles O57: a step lets the entry's time pass and makes a move, and every move has `MoveFrame`. -/
theorem timeConfigurationAndLogs : Obligations.TimeConfigurationAndLogs := by
  intro s t h
  obtain ⟨-, dt, l, d, hmove⟩ := step_next h
  obtain ⟨hnow, hcfg, htx, hresp⟩ := moveStep_frame hmove
  exact ⟨hnow ▸ Nat.le_add_right s.now dt, hcfg, htx, hresp⟩

end Sys2Proof.Machine

/-! The family 10_state.md: the reset values (R37), and the invariant (R36, R206, R60) at reset and across every step. -/

namespace Sys2Proof.Machine

/-! ### The reset state (R37, R371) -/

theorem State.pos?_of_replicate {s : State} {n p : Nat} {P Q : Position} (h : s.positions = List.replicate n Q)
    (hP : s.pos? p = some P) : P = Q :=
  List.eq_of_mem_replicate (h ▸ List.mem_of_getElem? hP)

/-- Settles O53: the fields of `State.resetWith` one by one; every record is a copy of `Position.reset`. -/
theorem resetValues : Obligations.ResetValues := by
  rintro cfg s rfl
  refine ⟨rfl, rfl, rfl, rfl, rfl, rfl, rfl, rfl, rfl, rfl, rfl, fun c => ?_, List.length_replicate,
    fun p P hP => State.pos?_of_replicate rfl hP, fun a => ⟨rfl, rfl⟩, rfl, rfl, rfl, rfl, rfl, rfl, rfl, rfl, rfl, rfl, rfl⟩
  cases c <;> exact ⟨rfl, rfl⟩

/-- The reset state has no live slot, empty buffers, and SC in STOPPED. -/
theorem State.Inv.resetWith {cfg : Config} (hcfg : cfg.wellFormed = true) : (State.resetWith cfg).Inv where
  cfgOk := hcfg
  positionsLen := List.length_replicate
  snapLen := List.length_replicate
  disAdmin := by simp [State.resetWith, Channel.reset, Channel.dis]
  scanIdle := fun _ => rfl
  scanBusy := nofun
  nsatsLe := Nat.zero_le _
  unliveReset := fun _ _ _ _ hP => State.pos?_of_replicate rfl hP
  unliveBytes := fun _ _ _ => ⟨rfl, rfl⟩
  bufferEnd := fun _ _ => ⟨rfl, rfl⟩
  adminIdle := fun _ => rfl
  txWf := Memory.wf_nil
  rxWf := Memory.wf_nil
  dstepIff := by simp [State.resetWith, Channel.reset, Controller.reset]
  phaseIn := nofun
  phaseOut := fun _ => rfl
  idleDisabled := fun _ => rfl
  pendingBuild := fun _ => rfl
  pendingScanned := nofun
  requestIff := by simp [State.resetWith, Channel.reset, Controller.reset]

/-- Settles O54: `State.Inv.resetWith`, and SC is stopped with no discovery and no request. -/
theorem resetMeetsInvariant : Obligations.ResetMeetsInvariant :=
  fun _ hcfg => ⟨.resetWith hcfg, rfl⟩

/-! ### What the invariant says of the scanned positions and of the discovery

In this and the next parts `{ h with … }` names exactly the clauses of the invariant an update can break; the others speak
of fields it does not write. -/

section Rules

variable {s : State}

/-- The numbers of positions: `CAP` is one above `N`, which R8 bounds by 255. -/
theorem State.Inv.cap_le (h : s.Inv) : s.cap = s.cfg.maxDevices + 1 ∧ s.cap ≤ 256 := by
  obtain ⟨⟨-, hN⟩, -⟩ := (wellFormed_iff s.cfg).1 h.cfgOk
  exact ⟨rfl, Nat.succ_le_succ hN⟩

/-- The scan never leaves the `CAP` positions (R20, R206). -/
theorem State.Inv.scanned_le (h : s.Inv) : s.scanned ≤ s.cap := by
  obtain ⟨hcap, -⟩ := h.cap_le
  have hn := h.nsatsLe
  cases hd : s.chan.discovering
  · have := h.scanIdle hd; omega
  · exact (h.scanBusy hd).le

theorem State.Inv.admin_of_discovering (h : s.Inv) (hd : s.chan.discovering = true) : s.chan.admin = false := by
  by_contra ha
  simp [h.adminIdle (by simpa using ha)] at hd

/-! ### Updates that keep the invariant: the channel and SC's phase -/

/-- SC leaves a phase other than BUILD and D_START for one that fits the discovery flag and `ADMIN`. -/
theorem State.Inv.setPhase (h : s.Inv) {q p : Phase} (hq : s.sc.phase = q) (hbuild : q ≠ .build) (hstart : q ≠ .dStart)
    (hin : p.inDiscovery = true → s.chan.discovering = true)
    (hout : p.outsideDiscovery = true → s.chan.discovering = false)
    (hidle : p = .stopped → s.chan.admin = false) (hp : p ≠ .dStart) : (s.setPhase p).Inv :=
  { h with
    phaseIn := hin
    phaseOut := hout
    idleDisabled := fun hs => hidle (hs.resolve_right hp)
    pendingBuild := fun _ => h.pendingBuild (hq ▸ hbuild)
    requestIff := by simpa [hq, hstart, hp] using h.requestIff }

theorem Phase.outsideDiscovery_of_inDiscovery {p : Phase} (hp : p.inDiscovery = true) : p.outsideDiscovery = false := by
  cases p with
  | dSettle1 | dEval | dSettle2 | dFinish => rfl
  | _ => cases hp

/-- During discovery SC may enter any phase that only a discovery has. -/
theorem State.Inv.setPhase_inDiscovery (h : s.Inv) {q p : Phase} (hq : s.sc.phase = q) (hbuild : q ≠ .build)
    (hstart : q ≠ .dStart) (hd : s.chan.discovering = true) (hp : p.inDiscovery = true) : (s.setPhase p).Inv := by
  refine h.setPhase hq hbuild hstart (fun _ => hd) (fun ho => ?_) (fun he => ?_) (fun he => ?_)
  · simp [Phase.outsideDiscovery_of_inDiscovery hp] at ho
  · subst he; cases hp
  · subst he; cases hp

@[simp] theorem Channel.dis_setDis (c : Channel) (b : Bool) : (c.setDis b).dis = b :=
  (setBit_getLsbD c.opstate 0 0 b (by decide)).trans (if_pos rfl)

@[simp] theorem Channel.dis_setCbl (c : Channel) (b : Bool) : (c.setCbl b).dis = c.dis :=
  (setBit_getLsbD c.opstate 2 0 b (by decide)).trans (if_neg (by decide))

/-- `OPSTATE.DIS` follows `ADMIN` (R36 item 1) when ENABLE or DISABLE writes both. -/
theorem State.Inv.setAdmin (h : s.Inv) (b : Bool) (hd : s.chan.discovering = false)
    (hb : b = true → s.sc.phase ≠ .stopped ∧ s.sc.phase ≠ .dStart) (ws ns : Nat) (sec : Counters) :
    { s with chan := { s.chan.setDis (!b) with admin := b, wstart := ws, nextstart := ns, sec := sec } }.Inv :=
  { h with
    disAdmin := Channel.dis_setDis s.chan (!b)
    adminIdle := fun _ => hd
    idleDisabled := fun hs => by
      cases b
      · rfl
      · obtain ⟨h1, h2⟩ := hb rfl
        exact (hs.elim h1 h2).elim }

theorem fst_lt_of_mem_pendingReads {n : Nat} {x : Nat × Group} (hx : x ∈ pendingReads n) : x.1 < n := by
  simp only [pendingReads, List.mem_flatMap, List.mem_range, List.mem_cons, List.not_mem_nil, or_false] at hx
  obtain ⟨p, hp, rfl | rfl | rfl⟩ := hx <;> exact hp

/-- `beginBuild` lists the reads of the scanned positions only (R201). -/
theorem State.Inv.beginBuild (h : s.Inv) (hstart : s.sc.phase ≠ .dStart) : (beginBuild s).Inv :=
  { h with
    phaseIn := nofun
    phaseOut := nofun
    idleDisabled := by simp [Machine.beginBuild]
    pendingBuild := fun hs => (hs rfl).elim
    pendingScanned := fun _ hx => fst_lt_of_mem_pendingReads hx
    requestIff := by simpa [Machine.beginBuild, hstart] using h.requestIff }

/-! ### Updates that keep the invariant: the arrays and the buffers -/

/-- Records may change at scanned positions, which are the live ones outside discovery. -/
theorem State.Inv.setPositions (h : s.Inv) {ps : List Position} (hlen : ps.length = s.positions.length)
    (hkeep : ∀ p, s.scanned ≤ p → ps[p]? = s.pos? p) : { s with positions := ps }.Inv :=
  { h with
    positionsLen := hlen.trans h.positionsLen
    unliveReset := fun hd p P hp hP =>
      h.unliveReset hd p P hp ((hkeep p ((h.scanIdle hd).trans_le hp)) ▸ hP) }

theorem State.Inv.setPos (h : s.Inv) {p : Nat} (hp : p < s.scanned) (P : Position) : (s.setPos p P).Inv :=
  h.setPositions List.length_set fun q hq => List.getElem?_set_ne (by omega)

/-- Bytes may change in the frames of scanned positions. -/
theorem State.Inv.setBuffers (h : s.Inv) {tx rx : Memory} (htx : tx.wf) (hrx : rx.wf)
    (hkeep : ∀ a, 8 * s.scanned ≤ a → tx.read a = s.txBuf.read a ∧ rx.read a = s.rxBuf.read a) :
    { s with txBuf := tx, rxBuf := rx }.Inv :=
  { h with
    txWf := htx
    rxWf := hrx
    unliveBytes := fun hd a ha => by
      obtain ⟨ht, hr⟩ := hkeep a (by rw [h.scanIdle hd]; exact ha)
      exact ht ▸ hr ▸ h.unliveBytes hd a ha
    bufferEnd := fun a ha => by
      obtain ⟨ht, hr⟩ := hkeep a ((Nat.mul_le_mul_left 8 h.scanned_le).trans ha)
      exact ht ▸ hr ▸ h.bufferEnd a ha }

/-- A pending read is done: it leaves `PENDING`, and a snapshot is written (R203). -/
theorem State.Inv.readDone (h : s.Inv) (x : Nat × Group) (p : Nat) (n : Snap) :
    { s with sc := { s.sc with pending := s.sc.pending.erase x, snap := s.sc.snap.set p n } }.Inv :=
  { h with
    snapLen := List.length_set.trans h.snapLen
    pendingBuild := fun hb => by simp [h.pendingBuild hb]
    pendingScanned := fun y hy => h.pendingScanned y (List.mem_of_mem_erase hy) }

end Rules

/-! ### The commands (R280 to R303) -/

/-- Every command keeps the invariant. The cases are those of `exec_next`: only ENABLE, DISABLE, DISCOVER, SET_CTRL_BLOCK and
the writes of a live slot's record touch a field the invariant names. -/
theorem exec_keeps_inv {i : Instr} {s t : State} (h : s.Inv) (hx : exec i s = .next t) : t.Inv := by
  rcases exec_next hx with ⟨code, words, rfl⟩ | ⟨-, hd, -, hp, rfl⟩ | ⟨-, hd, -, rfl⟩ | ⟨-, hd, ha, hp, rfl⟩ |
    ⟨high, low, -, rfl⟩ | ⟨v, -, rfl⟩ | ⟨words, rfl⟩ | ⟨p, P, Q, words, -, hd, hn, -, rfl⟩
  · exact { h with }
  · have hw : (s.setPhase .wait).Inv := h.setPhase hp nofun nofun nofun (fun _ => hd) nofun nofun
    exact { hw.setAdmin true hd (fun _ => ⟨nofun, nofun⟩) s.now s.now .zero with }
  · exact { h.setAdmin false hd nofun s.chan.wstart s.chan.nextstart s.chan.sec with }
  · exact { h with
      phaseIn := nofun
      phaseOut := fun _ => hd
      idleDisabled := fun _ => ha
      pendingBuild := fun _ => h.pendingBuild (by simp [hp])
      requestIff := by simp }
  · exact { h with }
  · exact { h with disAdmin := (Channel.dis_setCbl s.chan v).trans h.disAdmin }
  · exact { h with }
  · exact { h.setPos (p := p) (by rw [h.scanIdle hd]; exact hn) Q with }

/-! ### The scan cycle (R200 to R216, R230 to R233) -/

theorem waitStep_keeps_inv {s : State} (h : s.Inv) (hp : s.sc.phase = .wait) : (waitStep s).Inv := by
  have hd : s.chan.discovering = false := h.phaseOut (hp ▸ rfl)
  unfold waitStep
  split
  · split
    · exact State.Inv.beginBuild { h with } (by simp [hp])
    · exact h
  next ha => exact h.setPhase hp nofun nofun nofun (fun _ => hd) (fun _ => by simpa using ha) nofun

/-- A group read writes one record, the snapshot and `CLI_COUNT`. -/
theorem buildRead_keeps_inv {s : State} (h : s.Inv) {p : Nat} (hp : p < s.scanned) (g : Group) (P : Position) (n : Snap) :
    (buildRead p g P n s).Inv := by
  have ht := h.readDone (p, g) p (readGroup p g P.tx n)
  cases g with
  | values => exact ht
  | modes => exact ht
  | flags => exact { ht.setPos hp (flagsRead s.cfg p s.chan.cliCount P) with }

theorem buildStep_keeps_inv {pick : Nat} {s t : State} (h : s.Inv) (hp : s.sc.phase = .build)
    (hx : buildStep pick s = .next t) : t.Inv := by
  rcases buildStep_next hx with ⟨p, g, P, n, hpg, -, -, rfl⟩ | ⟨hnone, -, rfl⟩
  · exact buildRead_keeps_inv h (h.pendingScanned (p, g) (List.mem_of_getElem? hpg)) g P n
  · rw [forPositions_buildFrame]
    obtain ⟨hwf, -, hkeep⟩ := Memory.writeFrames s.txBuf s.scanned (fun p => builtFrame (s.sc.snap.getD p .reset)) h.txWf
    exact { h.setBuffers hwf h.rxWf fun a ha => ⟨hkeep a ha, rfl⟩ with
      phaseIn := nofun
      phaseOut := nofun
      idleDisabled := by simp
      pendingBuild := fun _ => hnone
      requestIff := by simpa [hp] using h.requestIff }

theorem txStep_keeps_inv {s t : State} (h : s.Inv) (hp : s.sc.phase = .tx) (hx : txStep s = .next t) : t.Inv := by
  rw [txStep_eq] at hx
  obtain ⟨rfl, -⟩ := overScanned_next hx
  exact { h.setPhase (p := .rx) hp nofun nofun nofun nofun nofun nofun with }

theorem rxStep_keeps_inv {s : State} (h : s.Inv) (hp : s.sc.phase = .rx) : (rxStep s).Inv :=
  { h.setPhase (p := .classify) hp nofun nofun nofun nofun nofun nofun with }

theorem hystStep_keeps_inv {s : State} (h : s.Inv) (hp : s.sc.phase = .hyst) : (hystStep s).Inv := by
  have hd : s.chan.discovering = false := h.phaseOut (hp ▸ rfl)
  obtain ⟨o, w, sec, he, hdis, -⟩ := healthEval_frame s.now s.chan
  unfold hystStep
  rw [he]
  have ho : { s with chan := { s.chan with opstate := o, wstart := w, sec := sec } }.Inv :=
    { h with disAdmin := hdis.trans h.disAdmin }
  exact ho.setPhase hp nofun nofun nofun (fun _ => hd) nofun nofun

theorem schedStep_keeps_inv {s : State} (h : s.Inv) (hp : s.sc.phase = .sched) : (schedStep s).Inv := by
  have hd : s.chan.discovering = false := h.phaseOut (hp ▸ rfl)
  have hw : (s.setPhase .wait).Inv := h.setPhase hp nofun nofun nofun (fun _ => hd) nofun nofun
  unfold schedStep
  split
  · exact { hw with }
  · exact hw

/-! ### CLASSIFY (R210 to R215) -/

/-- Part 1 stores frames at scanned positions only. -/
theorem classifyCapture_keeps_inv {s : State} (h : s.Inv) : (classifyCapture s).Inv := by
  rcases classifyCapture_cases s with ⟨-, he⟩ | ⟨_, n, -, -, he⟩ | ⟨bytes, -, he⟩ <;> rw [he]
  · exact { h with }
  · split <;> exact { h with }
  · obtain ⟨hwf, -, hkeep⟩ := Memory.writeFrames s.rxBuf s.scanned (frameAt bytes) h.rxWf
    exact { h.setBuffers h.txWf hwf fun a ha => ⟨rfl, hkeep a ha⟩ with }

/-- Parts 2 to 5 write the records of scanned positions only. -/
theorem classifyAll_keeps_inv {s : State} (h : s.Inv) : (classifyAll s).Inv := by
  have hc := classifyCapture_keeps_inv h
  have hscan : (classifyCapture s).scanned = s.scanned := by
    obtain ⟨e, f, m, a, b, he⟩ := classifyCapture_frame s
    rw [he]; rfl
  obtain ⟨ps, a, b, he, hlen, hpos, -⟩ := forPositions_classify s.scanned (classifyCapture s)
  unfold classifyAll
  rw [he]
  exact { hc.setPositions hlen fun p hp => by rw [hpos, if_neg (by omega)] with }

/-- `fail(code)` leaves the arrays, the slot count and the discovery as after reset (R185). -/
theorem discoveryFail_keeps_inv {s : State} (h : s.Inv) (hd : s.chan.discovering = true) (hb : s.sc.phase ≠ .build)
    (code : ResultCode) : (discoveryFail code s).Inv :=
  { h with
    positionsLen := List.length_replicate
    scanIdle := fun _ => rfl
    scanBusy := nofun
    nsatsLe := Nat.zero_le _
    unliveReset := fun _ _ _ _ hP => State.pos?_of_replicate rfl hP
    unliveBytes := fun _ _ _ => ⟨rfl, rfl⟩
    bufferEnd := fun _ _ => ⟨rfl, rfl⟩
    adminIdle := fun _ => rfl
    txWf := Memory.wf_nil
    rxWf := Memory.wf_nil
    dstepIff := by simp [discoveryFail]
    phaseIn := nofun
    phaseOut := fun _ => rfl
    idleDisabled := fun _ => h.admin_of_discovering hd
    pendingBuild := fun _ => h.pendingBuild hb
    pendingScanned := fun x hx => by simp [discoveryFail, resetPositions, h.pendingBuild hb] at hx
    requestIff := by simp [discoveryFail] }

theorem settle_keeps_inv {s : State} (h : s.Inv) (hp : s.sc.phase = .classify) (hd : s.chan.discovering = true)
    {p : Phase} (hin : p.inDiscovery = true) : (settle p s).Inv :=
  { h.setPhase_inDiscovery hp nofun nofun hd hin with }

theorem afterDiscoveryCycle_keeps_inv {s t : State} (h : s.Inv) (hp : s.sc.phase = .classify)
    (hd : s.chan.discovering = true) (hx : afterDiscoveryCycle s = .next t) : t.Inv := by
  unfold afterDiscoveryCycle at hx
  have hfail := discoveryFail_keeps_inv h hd (by simp [hp]) .generalLinkError
  split at hx
  · cases hx
  all_goals
    injection hx with hx
    subst hx
    split
    · exact settle_keeps_inv h hp hd rfl
    · exact hfail

theorem classifyStep_keeps_inv {s t : State} (h : s.Inv) (hp : s.sc.phase = .classify)
    (hx : classifyStep s = .next t) : t.Inv := by
  have hc := classifyAll_keeps_inv h
  obtain ⟨-, hphase, hdisc⟩ := classifyAll_scFrame s hp
  unfold classifyStep at hx
  split at hx
  · split at hx
    next hd => exact afterDiscoveryCycle_keeps_inv hc hphase (hdisc.trans hd) hx
    next hd =>
      injection hx with hx
      subst hx
      exact hc.setPhase hphase nofun nofun nofun (fun _ => hdisc.trans (by simpa using hd)) nofun nofun
  · obtain ⟨rfl, -⟩ := overScanned_next hx
    exact h

/-! ### Discovery (R181 to R186) -/

/-- D_START's teardown: all `CAP` positions are scanned, none is live (R181). -/
theorem dStartStep_keeps_inv {s : State} (h : s.Inv) (hp : s.sc.phase = .dStart) : (dStartStep s).Inv := by
  obtain ⟨-, hcap⟩ := h.cap_le
  have hscan : (BitVec.ofNat 9 s.cap).toNat = s.cap := by
    rw [BitVec.toNat_ofNat, Nat.mod_eq_of_lt (by omega)]
  have hreq : s.sc.discReq.isSome = true := h.requestIff.2 (.inl hp)
  have hadmin : s.chan.admin ≠ true := by simp [h.idleDisabled (.inr hp)]
  exact { h with
    positionsLen := List.length_replicate
    scanIdle := nofun
    scanBusy := fun _ => hscan
    nsatsLe := Nat.zero_le _
    unliveReset := nofun
    unliveBytes := nofun
    bufferEnd := fun _ _ => ⟨rfl, rfl⟩
    adminIdle := fun ha => (hadmin ha).elim
    txWf := Memory.wf_nil
    rxWf := Memory.wf_nil
    dstepIff := by simp [dStartStep, beginBuild]
    phaseIn := nofun
    phaseOut := nofun
    idleDisabled := by simp [dStartStep, beginBuild]
    pendingBuild := fun hb => (hb rfl).elim
    pendingScanned := fun _ hx => fst_lt_of_mem_pendingReads hx
    requestIff := by simp [dStartStep, beginBuild, hreq] }

/-- D_SETTLE1 and D_SETTLE2 wait, or go on to a phase of the discovery. -/
theorem settleStep_keeps_inv {s : State} (h : s.Inv) {q p : Phase} (hq : s.sc.phase = q) (hqin : q.inDiscovery = true)
    (hpin : p.inDiscovery = true) : (settleStep p s).Inv := by
  have hd : s.chan.discovering = true := h.phaseIn (hq ▸ hqin)
  unfold settleStep
  split
  · refine h.setPhase_inDiscovery hq (fun he => ?_) (fun he => ?_) hd hpin <;> subst he <;> cases hqin
  · exact h

/-- D_EVAL counts at most `N` satellites, since the guard position bounds the count (R183). -/
theorem dEvalStep_keeps_inv {s t : State} (h : s.Inv) (hp : s.sc.phase = .dEval) (hx : dEvalStep s = .next t) : t.Inv := by
  have hd : s.chan.discovering = true := h.phaseIn (hp ▸ rfl)
  obtain ⟨hN, hcap⟩ := h.cap_le
  unfold dEvalStep at hx
  split at hx
  · cases hx
  next guard hguard =>
    split at hx <;> injection hx with hx <;> subst hx
    next => exact discoveryFail_keeps_inv h hd (by simp [hp]) _
    next hg =>
      have hle : satellitesFound s.positions ≤ s.cfg.maxDevices := satellitesFound_le hguard (by simpa using hg)
      refine State.Inv.beginBuild ?_ (by simp [hp])
      exact { h with
        positionsLen := (List.length_map _).trans h.positionsLen
        scanIdle := fun hd' => by simp [hd] at hd'
        nsatsLe := by
          show (BitVec.ofNat 8 (satellitesFound s.positions)).toNat ≤ s.cfg.maxDevices
          rw [BitVec.toNat_ofNat, Nat.mod_eq_of_lt (by omega)]
          exact hle
        unliveReset := fun hd' => by simp [hd] at hd'
        unliveBytes := fun hd' => by simp [hd] at hd'
        dstepIff := by simp [hd] }

/-- D_FINISH keeps the records and the bytes of live slots and resets all others (R186). -/
theorem dFinishStep_keeps_inv {s : State} (h : s.Inv) (hp : s.sc.phase = .dFinish) : (dFinishStep s).Inv := by
  have hd : s.chan.discovering = true := h.phaseIn (hp ▸ rfl)
  have hpend : s.sc.pending = [] := h.pendingBuild (by simp [hp])
  have hN := h.nsatsLe
  have hcap := h.cap_le
  have hread : ∀ a, 8 * s.chan.nsats.toNat ≤ a →
      (s.txBuf.keepBelow (8 * s.chan.nsats.toNat)).read a = 0 ∧ (s.rxBuf.keepBelow (8 * s.chan.nsats.toNat)).read a = 0 :=
    fun a ha => by simp [Memory.read_keepBelow, Nat.not_lt.2 ha]
  exact { h with
    positionsLen := List.length_mapIdx.trans h.positionsLen
    scanIdle := fun _ => BitVec.toNat_setWidth_of_le (by decide)
    scanBusy := nofun
    unliveReset := fun _ p P hk hP => by
      obtain ⟨Q, -, hQ⟩ : ∃ Q, s.positions[p]? = some Q ∧ finishPosition s.chan.nsats.toNat p Q = P := by
        simpa [dFinishStep, State.pos?] using hP
      exact hQ ▸ if_neg (Nat.not_lt.2 hk)
    unliveBytes := fun _ => hread
    bufferEnd := fun a ha => hread a (by change 8 * s.cap ≤ a at ha; omega)
    adminIdle := fun _ => rfl
    txWf := Memory.wf_keepBelow h.txWf _
    rxWf := Memory.wf_keepBelow h.rxWf _
    dstepIff := by simp [dFinishStep]
    phaseIn := nofun
    phaseOut := fun _ => rfl
    idleDisabled := fun _ => h.admin_of_discovering hd
    pendingBuild := fun _ => hpend
    pendingScanned := fun x hx => by simp [dFinishStep, hpend] at hx
    requestIff := by simp [dFinishStep] }

/-! ### Every agent (R6) -/

/-- SC's step keeps the invariant in every phase. -/
theorem scStep_keeps_inv {pick : Nat} {s t : State} (h : s.Inv) (hx : scStep pick s = .next t) : t.Inv := by
  unfold scStep at hx
  split at hx
  next => injection hx with hx; exact hx ▸ h
  next hp => injection hx with hx; exact hx ▸ waitStep_keeps_inv h hp
  next hp => exact buildStep_keeps_inv h hp hx
  next hp => exact txStep_keeps_inv h hp hx
  next hp => injection hx with hx; exact hx ▸ rxStep_keeps_inv h hp
  next hp => exact classifyStep_keeps_inv h hp hx
  next hp => injection hx with hx; exact hx ▸ hystStep_keeps_inv h hp
  next hp => injection hx with hx; exact hx ▸ schedStep_keeps_inv h hp
  next hp => injection hx with hx; exact hx ▸ dStartStep_keeps_inv h hp
  next hp => injection hx with hx; exact hx ▸ settleStep_keeps_inv h hp rfl rfl
  next hp => exact dEvalStep_keeps_inv h hp hx
  next hp => injection hx with hx; exact hx ▸ settleStep_keeps_inv h hp rfl rfl
  next hp => injection hx with hx; exact hx ▸ dFinishStep_keeps_inv h hp

/-- Every move of every agent keeps the invariant. -/
theorem moveStep_keeps_inv {m : Move} {s t : State} (h : s.Inv) (hx : moveStep m s = .next t) : t.Inv := by
  rcases moveStep_next hx with ⟨pick, -, hsc⟩ | ⟨k, w0, dw, i, -, -, -, hexec⟩ | ⟨k, rfl⟩ | ⟨ps, rfl⟩ | rfl | rfl
  · exact scStep_keeps_inv h hsc
  · exact exec_keeps_inv (s := { s with host := k }) { h with } hexec
  · exact { h with }
  · exact { h with }
  · exact { h with }
  · exact h

/-- Settles O55: the schedule and the time are not in the invariant, and every move keeps it. -/
theorem everyStepKeepsInvariant : Obligations.EveryStepKeepsInvariant := by
  intro s t h hx
  obtain ⟨-, dt, l, d, hmove⟩ := step_next hx
  exact moveStep_keeps_inv (s := { s with inputs := l, draws := d, now := s.now + dt }) { h with } hmove

end Sys2Proof.Machine

/-! The family 30_encoding.md: the decoder and the encoder (R87 to R92), assembly (R96), the frame's bits in send order (R81),
and the commands that are not executed (R91, R280). -/

namespace Sys2Proof

/-! ### Rows of the opcode map (R90) -/

theorem fieldOp_mask : ∀ r ∈ opcodeMap, fieldOp r.mask = 0xFF := by decide

theorem pattern_and_mask : ∀ r ∈ opcodeMap, r.pattern &&& r.mask = r.pattern := by decide

theorem eq_of_fieldOp_pattern_eq :
    ∀ r ∈ opcodeMap, ∀ q ∈ opcodeMap, fieldOp r.pattern = fieldOp q.pattern → r = q := by decide

theorem exists_row (m : Mnemonic) : ∃ r ∈ opcodeMap, r.mnemonic = m := by cases m <;> decide

/-- Every row fixes the whole opcode byte, so a word that selects a row has that row's opcode. -/
theorem fieldOp_of_selects {w : Word} {r : OpRow} (hr : r ∈ opcodeMap) (hw : w &&& r.mask = r.pattern) :
    fieldOp w = fieldOp r.pattern :=
  calc fieldOp w = fieldOp w &&& 0xFF := (BitVec.and_allOnes (x := fieldOp w)).symm
    _ = fieldOp (w &&& r.mask) := by rw [← fieldOp_mask r hr, fieldOp, fieldOp, fieldOp, BitVec.extractLsb'_and]
    _ = fieldOp r.pattern := by rw [hw]

/-- Settles O3: the rows a word selects have the word's opcode, and no two rows share an opcode. -/
theorem opcodeRowsDisjoint : Obligations.OpcodeRowsDisjoint := by
  intro w r hr q hq hwr hwq
  exact eq_of_fieldOp_pattern_eq r hr q hq ((fieldOp_of_selects hr hwr).symm.trans (fieldOp_of_selects hq hwq))

theorem selectRow_eq_some_iff {w : Word} {r : OpRow} :
    selectRow w = some r ↔ r ∈ opcodeMap ∧ w &&& r.mask = r.pattern := by
  constructor
  · intro h
    exact ⟨List.mem_of_find?_eq_some h, by simpa using List.find?_some h⟩
  · rintro ⟨hr, hw⟩
    cases hq : selectRow w with
    | none => exact absurd (beq_iff_eq.2 hw) (List.find?_eq_none.1 hq r hr)
    | some q =>
      have hwq : w &&& q.mask = q.pattern := by simpa using List.find?_some hq
      rw [opcodeRowsDisjoint w q (List.mem_of_find?_eq_some hq) r hr hwq hw]

/-- The decoder accepts a word exactly when it selects a row, and reads the operands of that row (R91). -/
theorem decode_eq_ok_iff {w dw : Word} {i : Instr} :
    decode w dw = .ok i ↔
      ∃ r ∈ opcodeMap, w &&& r.mask = r.pattern ∧ assembleOperands r.mnemonic w dw = i := by
  unfold decode
  constructor
  · intro h
    split at h
    next r hr =>
      obtain ⟨hmem, hw⟩ := selectRow_eq_some_iff.1 hr
      exact ⟨r, hmem, hw, Except.ok.inj h⟩
    next => cases h
  · rintro ⟨r, hmem, hw, rfl⟩
    rw [selectRow_eq_some_iff.2 ⟨hmem, hw⟩]

/-! ### Operands (R89) -/

/-- The operand bits of a command word of each format: the bits that R88 does not reserve. -/
def Format.operandBits : Format → Word
  | .N | .W => commandWord 0 0 0 0
  | .V => commandWord 0 0 0 1
  | .A => commandWord 0 0xFF 0 0
  | .AV => commandWord 0 0xFF 0 1
  | .AIV => commandWord 0 0xFF 3 0xFF
  | .AIM => commandWord 0 0xFF 3 7

/-- The mask of a row leaves free exactly the operand bits of its format (R88, R90). -/
theorem mask_eq_not_operandBits : ∀ r ∈ opcodeMap, r.mask = ~~~ r.mnemonic.format.operandBits := by decide

/-- The pattern of a row is the word of its command with every operand 0 (R90). -/
theorem encodeWord_zero_operands :
    ∀ r ∈ opcodeMap, encodeWord (assembleOperands r.mnemonic 0 0) = r.pattern := by decide

theorem commandWord_or (a b c d a' b' c' d' : Byte) :
    commandWord a b c d ||| commandWord a' b' c' d' = commandWord (a ||| a') (b ||| b') (c ||| c') (d ||| d') :=
  BitVec.or_append.trans (by rw [BitVec.or_append, BitVec.or_append]; rfl)

theorem commandWord_zero : commandWord 0 0 0 0 = 0 := rfl

@[simp] theorem getElem_zero_flagByte (b : Bool) : (flagByte b)[0] = b := by cases b <;> rfl

@[simp] theorem flagByte_false : flagByte false = 0 := rfl

theorem flagByte_getElem_zero (v : Byte) : flagByte v[0] = v &&& 1 := by
  revert v; decide

/-- An operand of `k` bits read from its byte and written back keeps the low `k` bits. -/
theorem setWidth_extractLsb'_zero (v : Byte) (k : Nat) :
    (v.extractLsb' 0 k).setWidth 8 = v &&& BitVec.ofNat 8 (2 ^ k - 1) := by
  apply BitVec.eq_of_getLsbD_eq
  intro i hi
  simp only [BitVec.getLsbD_setWidth, BitVec.getLsbD_extractLsb', BitVec.getLsbD_and, BitVec.getLsbD_ofNat,
    Nat.testBit_two_pow_sub_one, hi, decide_true, Bool.true_and, Nat.zero_add, Bool.and_comm]

/-- An operand at its own width written into its byte and read back. -/
theorem extractLsb'_zero_setWidth {k : Nat} (x : BitVec k) (hk : k ≤ 8) : (x.setWidth 8).extractLsb' 0 k = x := by
  rw [BitVec.extractLsb'_setWidth_of_le (by omega), BitVec.extractLsb'_eq_self]

theorem and_0xFF (v : Byte) : v &&& 0xFF#8 = v := BitVec.and_allOnes

/-- The upper half of a data word (R89). -/
@[simp] theorem extractLsb'_high (high low : BitVec 16) : (high ++ low).extractLsb' 16 16 = high :=
  BitVec.extractLsb'_append_eq_left

/-- The lower half of a data word (R89). -/
@[simp] theorem extractLsb'_low (high low : BitVec 16) : (high ++ low).extractLsb' 0 16 = low :=
  BitVec.extractLsb'_append_eq_right

theorem high_append_low (dw : Word) : dw.extractLsb' 16 16 ++ dw.extractLsb' 0 16 = dw :=
  BitVec.extractLsb'_append_extractLsb' (w := 16) (len := 16)

/-- The operands of a command stand in its words: reading them back gives the command. -/
theorem assembleOperands_encode (i : Instr) (dw : Word) :
    assembleOperands i.mnemonic (encodeWord i) ((encodeData i).getD dw) = i := by
  cases i <;>
    simp [Instr.mnemonic, assembleOperands, encodeWord, encodeData, extractLsb'_zero_setWidth]

/-- The word of the command read from `w` has the operand bits of `w`, and 0 in every reserved bit. -/
theorem encodeWord_assembleOperands (m : Mnemonic) (w dw : Word) :
    encodeWord (assembleOperands m w dw) =
      encodeWord (assembleOperands m 0 0) ||| (w &&& m.format.operandBits) := by
  obtain ⟨a, b, c, d, rfl⟩ := exists_commandWord w
  rw [← commandWord_zero]
  cases m <;>
    simp [encodeWord, assembleOperands, Mnemonic.format, Format.operandBits, commandWord_and, commandWord_or,
      flagByte_getElem_zero, setWidth_extractLsb'_zero, and_0xFF]

/-- The command read from any word by way of a row is written with the row's pattern and the word's operand bits. -/
theorem encodeWord_assembleOperands_row {r : OpRow} (hr : r ∈ opcodeMap) (w dw : Word) :
    encodeWord (assembleOperands r.mnemonic w dw) = r.pattern ||| (w &&& ~~~ r.mask) := by
  rw [encodeWord_assembleOperands, encodeWord_zero_operands r hr, mask_eq_not_operandBits r hr, BitVec.not_not]

theorem encodeWord_of_selects {w : Word} {r : OpRow} (hr : r ∈ opcodeMap) (hw : w &&& r.mask = r.pattern) (dw : Word) :
    encodeWord (assembleOperands r.mnemonic w dw) = w := by
  rw [encodeWord_assembleOperands_row hr, ← hw, ← BitVec.and_or_distrib_left, BitVec.or_not_self, BitVec.and_allOnes]

/-- The word of a command selects the command's row: it is the row's pattern and bits outside the row's mask. -/
theorem encodeWord_selects {i : Instr} {r : OpRow} (hr : r ∈ opcodeMap) (hm : r.mnemonic = i.mnemonic) :
    encodeWord i &&& r.mask = r.pattern := by
  rw [← assembleOperands_encode i 0, ← hm, encodeWord_assembleOperands_row hr, BitVec.and_or_distrib_right,
    pattern_and_mask r hr, BitVec.and_assoc, BitVec.not_and_self]
  simp

/-- The data word of the command read from a pair of words is the second one, if the command has any. -/
theorem encodeData_assembleOperands {m : Mnemonic} {w dw d : Word}
    (h : encodeData (assembleOperands m w dw) = some d) : d = dw := by
  cases m
  case setThresholds =>
    obtain rfl := Option.some.inj h
    exact high_append_low dw
  all_goals cases h

/-- Settles O2: a word that selects a row is the row's pattern and operand bits, and so is what the encoder writes. -/
theorem acceptedWordsAreEncodings : Obligations.AcceptedWordsAreEncodings := by
  intro w dw i h
  obtain ⟨r, hr, hw, rfl⟩ := decode_eq_ok_iff.1 h
  refine ⟨?_, fun d hd => encodeData_assembleOperands hd⟩
  exact encodeWord_of_selects hr hw dw

/-- Settles O1: the command's word selects the command's row, whose operand fields give every operand back. -/
theorem commandRoundTrip : Obligations.CommandRoundTrip := by
  intro i dw
  obtain ⟨r, hr, hm⟩ := exists_row i.mnemonic
  exact decode_eq_ok_iff.2 ⟨r, hr, encodeWord_selects hr hm, hm ▸ assembleOperands_encode i dw⟩

/-- Settles O4: the legal words are the words of their commands; the three illegal words are evaluated. -/
theorem knownWordsDecode : Obligations.KnownWordsDecode :=
  ⟨commandRoundTrip .enable 0, commandRoundTrip (.setThresholds 5 2) 0, rfl, commandRoundTrip (.setActValue 0 0 200) 0,
    commandRoundTrip (.setActMode 1 3 5) 0, commandRoundTrip (.setInvServerCrc 2 true) 0,
    commandRoundTrip (.getSlotStats 1 true) 0, rfl, rfl⟩

/-! ### Assembly (R96) -/

/-- A line is well-formed exactly when it has one operand per bound of its format, each below its bound. -/
theorem AsmLine.wellFormed_iff_forall₂ (l : AsmLine) :
    l.wellFormed = true ↔ List.Forall₂ (· < ·) l.operands l.mnemonic.format.bounds := by
  simp [AsmLine.wellFormed, AsmLine.arityOk, AsmLine.rangeOk, List.forall₂_iff_zip]

/-- A Boolean operand read from a number below its bound and written back. -/
theorem toNat_beq_one {x : Nat} (hx : x < 2) : (x == 1).toNat = x := by
  interval_cases x <;> rfl

/-- Operands in range are kept: the command built from them has them on its line. -/
theorem AsmLine.toAsm_build {m : Mnemonic} {ops : List Nat} (h : List.Forall₂ (· < ·) ops m.format.bounds) :
    (AsmLine.build m (ops.getD 0 0) (ops.getD 1 0) (ops.getD 2 0)).toAsm = ⟨m, ops⟩ := by
  cases m <;> simp only [Mnemonic.format, Format.bounds, List.forall₂_cons_right_iff, List.forall₂_nil_right_iff] at h
  case enable | disable | discover | getSlotCount | getChannelState =>
    rw [h]; rfl
  case getStats | setCtrlBlock =>
    obtain ⟨x, -, hx, rfl, rfl⟩ := h
    simp [AsmLine.build, Instr.toAsm, toNat_beq_one hx]
  case getSlotHandle | readSensor | readStatus | readTxFrame | readRxFrame =>
    obtain ⟨x, -, hx, rfl, rfl⟩ := h
    simp [AsmLine.build, Instr.toAsm, Nat.mod_eq_of_lt hx]
  case setSlotEnable | setInvServerCrc | setInvClientCrc | getSlotStats =>
    obtain ⟨x, -, hx, ⟨y, -, hy, rfl, rfl⟩, rfl⟩ := h
    simp [AsmLine.build, Instr.toAsm, Nat.mod_eq_of_lt hx, toNat_beq_one hy]
  case setThresholds =>
    obtain ⟨x, -, hx, ⟨y, -, hy, rfl, rfl⟩, rfl⟩ := h
    simp [AsmLine.build, Instr.toAsm, Nat.mod_eq_of_lt hx, Nat.mod_eq_of_lt hy]
  case setActValue | setActMode =>
    obtain ⟨x, -, hx, ⟨y, -, hy, ⟨z, -, hz, rfl, rfl⟩, rfl⟩, rfl⟩ := h
    simp [AsmLine.build, Instr.toAsm, Nat.mod_eq_of_lt hx, Nat.mod_eq_of_lt hy, Nat.mod_eq_of_lt hz]

theorem AsmLine.assemble_eq_some_iff {l : AsmLine} {i : Instr} :
    l.assemble = some i ↔ l.wellFormed = true ∧
      AsmLine.build l.mnemonic (l.operands.getD 0 0) (l.operands.getD 1 0) (l.operands.getD 2 0) = i := by
  simp [AsmLine.assemble]

/-- Settles O5: the operands of a well-formed line are in range, and such operands are kept. -/
theorem assemblyIsFaithful : Obligations.AssemblyIsFaithful := by
  intro l
  refine ⟨?_, fun i hi => ?_⟩
  · cases hwf : l.wellFormed <;> simp [AsmLine.assemble, hwf]
  · obtain ⟨hwf, rfl⟩ := AsmLine.assemble_eq_some_iff.1 hi
    exact AsmLine.toAsm_build (l.wellFormed_iff_forall₂.1 hwf)

end Sys2Proof

namespace Sys2Proof.Machine

/-! ### The stream of a packed frame (R62, R81) -/

theorem bitsMsb_eq_fieldBits (b : Byte) : bitsMsb b = fieldBits b := rfl

theorem fieldBits_ofBool (b : Bool) : fieldBits (BitVec.ofBool b) = [b] := by cases b <;> rfl

/-- Concatenated fields are sent one after the other, the higher one first. -/
theorem fieldBits_append {n m : Nat} (x : BitVec n) (y : BitVec m) : fieldBits (x ++ y) = fieldBits x ++ fieldBits y := by
  have hrange : List.range (n + m) = List.range m ++ (List.range n).map (m + ·) := by rw [Nat.add_comm, List.range_add]
  have hx : ∀ i, (x ++ y).getLsbD (m + i) = x.getLsbD i := by simp [BitVec.getLsbD_append]
  have hy : (List.range m).map (x ++ y).getLsbD = (List.range m).map y.getLsbD :=
    List.map_congr_left fun i hi => by simp [BitVec.getLsbD_append, List.mem_range.1 hi]
  simp [fieldBits, hrange, hx, hy, Function.comp_def, List.map_reverse]

/-- The mode of actuator 1 lies across bytes 5 and 6 (R80). -/
theorem fieldBits_split (v : BitVec 3) :
    fieldBits v = fieldBits (v.extractLsb' 1 2) ++ fieldBits (v.extractLsb' 0 1) := by
  rw [← fieldBits_append]
  exact congrArg fieldBits (BitVec.extractLsb'_append_extractLsb' (w := 2) (len := 1)).symm

theorem fieldBits_pack_b5 (f : Fields) :
    fieldBits (pack f).b5 = fieldBits f.mode.v3 ++ fieldBits f.mode.v2 ++ fieldBits (f.mode.v1.extractLsb' 1 2) :=
  (fieldBits_append (f.mode.v3 ++ f.mode.v2) _).trans (by rw [fieldBits_append])

theorem fieldBits_pack_b6 (f : Fields) :
    fieldBits (pack f).b6 = fieldBits (f.mode.v1.extractLsb' 0 1) ++ fieldBits f.mode.v0 ++
      [false, f.enable, f.invertClientCrc, f.startMark] := by
  show fieldBits (_ ++ _ ++ _ ++ _ ++ _ ++ _ : BitVec (1 + 3 + 1 + 1 + 1 + 1)) = _
  simp only [fieldBits_append, fieldBits_ofBool, List.append_assoc]
  rfl

theorem fieldBits_pack_b7 (f : Fields) :
    fieldBits (pack f).b7 = [false, false, f.watchdogError, f.remoteCrcError] ++ fieldBits f.crc := by
  show fieldBits (_ ++ _ ++ _ ++ _ : BitVec (2 + 1 + 1 + 4)) = _
  simp only [fieldBits_append, fieldBits_ofBool]
  rfl

/-- Settles O31: byte by byte, a packed byte is sent as the fields it concatenates. -/
theorem frameStreamLayout : Obligations.FrameStreamLayout := by
  intro f
  simp only [bitsOfBytes, Frame.bytes, List.flatMap_cons, List.flatMap_nil, bitsMsb_eq_fieldBits, fieldBits_pack_b5,
    fieldBits_pack_b6, fieldBits_pack_b7, fieldBits_split f.mode.v1]
  simp [pack]

/-! ### Commands that are not executed (R91, R280) -/

/-- A host that awaits its DISCOVER response has no step (R280, log 6). -/
theorem hostStep_of_waiting {h : Nat} {s : State} (hw : s.sc.discReq = some h) (w dw : Word) :
    hostStep h w dw s = .next s :=
  if_pos hw

theorem hostStep_of_illegal {h : Nat} {w dw : Word} {s : State} (hw : s.sc.discReq ≠ some h)
    (hill : ∀ i, decode w dw ≠ .ok i) : hostStep h w dw s = .next ({ s with host := h }.reject .illegalCommand) := by
  cases hd : decode w dw with
  | ok i => exact absurd hd (hill i)
  | error e => simp only [hostStep, if_neg hw, hd]

/-- Settles O7: the listed entry is the host's command, and `hostStep` executes neither of the two. -/
theorem commandsNotExecuted : Obligations.CommandsNotExecuted := by
  intro s dt h w dw rest hwf hi
  refine ⟨fun hw hill => ?_, fun hw => ?_⟩ <;> rw [step_eq_moveStep_of_inputs hwf hi]
  · exact hostStep_of_illegal hw hill
  · refine hostStep_of_waiting ?_ w dw
    exact hw

end Sys2Proof.Machine

namespace Sys2Proof.Machine

/-! ### Pack and unpack (R142, R83) -/

@[simp] theorem length_fieldBits {n : Nat} (v : BitVec n) : (fieldBits v).length = n := by simp [fieldBits]

theorem fieldBits_injective {n : Nat} {x y : BitVec n} (h : fieldBits x = fieldBits y) : x = y :=
  BitVec.eq_of_getLsbD_eq fun i hi => List.map_inj_left.1 h i (by simpa using hi)

theorem fieldBits_append_inj {n : Nat} {x y : BitVec n} {l m : List Bool} :
    fieldBits x ++ l = fieldBits y ++ m ↔ x = y ∧ l = m := by
  refine ⟨fun h => ?_, fun ⟨hx, hl⟩ => hx ▸ hl ▸ rfl⟩
  obtain ⟨hx, hl⟩ := List.append_inj h (by simp)
  exact ⟨fieldBits_injective hx, hl⟩

/-- The stream of a packed frame holds every field at its own place (R81), so it determines them. -/
theorem pack_injective : Function.Injective pack := by
  intro f g h
  have hbits : bitsOfBytes (pack f).bytes = bitsOfBytes (pack g).bytes := by rw [h]
  rw [frameStreamLayout, frameStreamLayout] at hbits
  simp only [List.append_assoc, List.cons_append, List.nil_append, fieldBits_append_inj, List.cons.injEq] at hbits
  obtain ⟨hsensor, ha3, ha2, ha1, ha0, hm3, hm2, hm1, hm0, -, hen, hinv, hstart, -, -, hwd, hrem, hcrc⟩ := hbits
  have hact : f.act = g.act := Quad.mk.injEq .. ▸ ⟨ha0, ha1, ha2, ha3⟩
  have hmode : f.mode = g.mode := Quad.mk.injEq .. ▸ ⟨hm0, hm1, hm2, hm3⟩
  exact Fields.mk.injEq .. ▸ ⟨hsensor, hact, hmode, hen, hinv, hstart, hwd, hrem, fieldBits_injective hcrc⟩

/-- The upper bits of actuator 1's mode are read from byte 5 (R80). -/
theorem unpackFields_mode_v1_high (b : Frame) :
    (unpackFields b).mode.v1.extractLsb' 1 2 = b.b5.extractLsb' 0 2 :=
  BitVec.extractLsb'_append_eq_left

/-- The lowest bit of actuator 1's mode is read from byte 6 (R80). -/
theorem unpackFields_mode_v1_low (b : Frame) :
    (unpackFields b).mode.v1.extractLsb' 0 1 = b.b6.extractLsb' 7 1 :=
  BitVec.extractLsb'_append_eq_right

theorem pack_unpackFields_b5 (b : Frame) : (pack (unpackFields b)).b5 = b.b5 := by
  apply fieldBits_injective
  rw [fieldBits_pack_b5, unpackFields_mode_v1_high]
  simp [unpackFields, fieldBits, List.range_succ]

theorem pack_unpackFields_b6 (b : Frame) : (pack (unpackFields b)).b6 = b.b6 &&& 0xF7 := by
  apply fieldBits_injective
  rw [fieldBits_pack_b6, unpackFields_mode_v1_low]
  simp [unpackFields, fieldBits, List.range_succ]

theorem pack_unpackFields_b7 (b : Frame) : (pack (unpackFields b)).b7 = b.b7 &&& 0x3F := by
  apply fieldBits_injective
  rw [fieldBits_pack_b7]
  simp [unpackFields, fieldBits, List.range_succ]

theorem pack_unpackFields (b : Frame) :
    pack (unpackFields b) = { b with b6 := b.b6 &&& 0xF7, b7 := b.b7 &&& 0x3F } := by
  rw [← pack_unpackFields_b5, ← pack_unpackFields_b6, ← pack_unpackFields_b7]
  rfl

/-- The reserved bit of byte 6 is 0 in a packed frame (R83). -/
theorem pack_b6_and_0xF7 (f : Fields) : (pack f).b6 &&& 0xF7 = (pack f).b6 := by
  have hreserved : (pack f).b6[3] = false := by
    simpa [fieldBits, List.range_succ] using congrArg (fun l => (l.drop 4).head?) (fieldBits_pack_b6 f)
  apply fieldBits_injective
  simp [fieldBits, List.range_succ, hreserved]

/-- The reserved bits of byte 7 are 0 in a packed frame (R83). -/
theorem pack_b7_and_0x3F (f : Fields) : (pack f).b7 &&& 0x3F = (pack f).b7 := by
  have hreserved : (pack f).b7[7] = false ∧ (pack f).b7[6] = false := by
    simpa [fieldBits, List.range_succ] using congrArg (·.take 2) (fieldBits_pack_b7 f)
  apply fieldBits_injective
  simp [fieldBits, List.range_succ, hreserved]

theorem unpackFields_pack (f : Fields) : unpackFields (pack f) = f := by
  apply pack_injective
  rw [pack_unpackFields, pack_b6_and_0xF7, pack_b7_and_0x3F]

/-- Settles O30: `pack` of `unpack` masks the reserved bits; they are 0 in a packed frame, and `pack` is injective. -/
theorem codecRoundTrip : Obligations.CodecRoundTrip :=
  ⟨fun f _ => unpackFields_pack f, fun b _ => pack_unpackFields b⟩

end Sys2Proof.Machine

/-! The family 41_crc.md: the store (R151), verification (R152, R153) and the detection facts (R154) of the CRC-4. -/

namespace Sys2Proof.Machine

/-! ### Storing the checksum (R151) -/

/-- The checksum does not read byte 7 (R82). -/
@[simp] theorem crc4_with_b7 (b : Frame) (v : Byte) : crc4 { b with b7 := v } = crc4 b := rfl

@[simp] theorem crc4_crcStore (b : Frame) (inv : Bool) : crc4 (crcStore b inv) = crc4 b := rfl

/-- Replacing the low nibble of a byte by masking. -/
theorem and_0xF0_or_setWidth (v : Byte) (c : BitVec 4) : (v &&& 0xF0) ||| c.setWidth 8 = v.extractLsb' 4 4 ++ c := by
  apply BitVec.eq_of_getLsbD_eq
  intro i hi
  rw [BitVec.getLsbD_append]
  interval_cases i <;> simp

/-- Byte 7 after the store: its old high nibble, and below it the checksum or the checksum's complement. -/
theorem crcStore_b7 (b : Frame) (inv : Bool) :
    (crcStore b inv).b7 = b.b7.extractLsb' 4 4 ++ (if inv then ~~~ crc4 b else crc4 b) :=
  and_0xF0_or_setWidth _ _

theorem crcStore_b7_high (b : Frame) (inv : Bool) :
    (crcStore b inv).b7.extractLsb' 4 4 = b.b7.extractLsb' 4 4 := by
  rw [crcStore_b7]
  exact BitVec.extractLsb'_append_eq_left

theorem crcStore_b7_low (b : Frame) (inv : Bool) :
    (crcStore b inv).b7.extractLsb' 0 4 = if inv then ~~~ crc4 b else crc4 b := by
  rw [crcStore_b7]
  exact BitVec.extractLsb'_append_eq_right

/-- The store writes byte 7 alone. -/
theorem crcStore_eq_with_b7 (b : Frame) (inv : Bool) : crcStore b inv = { b with b7 := (crcStore b inv).b7 } := rfl

/-- Settles O28: byte 7 after the store is `crcStore_b7`, which reads the old high nibble alone. -/
theorem crcStoreKeepsTheRest : Obligations.CrcStoreKeepsTheRest := by
  intro b inv n
  refine ⟨crcStore_eq_with_b7 b inv, crcStore_b7_high b inv, crcStore_b7_low b inv, ?_⟩
  have hhigh : (b.b7.extractLsb' 4 4 ++ n).extractLsb' 4 4 = b.b7.extractLsb' 4 4 := BitVec.extractLsb'_append_eq_left
  rw [crcStore_eq_with_b7, crcStore_eq_with_b7 b, crcStore_b7, crcStore_b7, hhigh, crc4_with_b7]

/-! ### Verification (R152, R153) -/

theorem crcVerify_iff (b : Frame) : crcVerify b = true ↔ b.b7.extractLsb' 0 4 = crc4 b := beq_iff_eq

theorem crcVerify_eq_false_iff (b : Frame) : crcVerify b = false ↔ b.b7.extractLsb' 0 4 ≠ crc4 b := beq_eq_false_iff_ne

theorem crcVerify_crcStore (b : Frame) (inv : Bool) : crcVerify (crcStore b inv) = !inv := by
  cases inv
  · rw [Bool.not_false, crcVerify_iff, crc4_crcStore, crcStore_b7_low, if_neg Bool.false_ne_true]
  · rw [Bool.not_true, crcVerify_eq_false_iff, crc4_crcStore, crcStore_b7_low, if_pos rfl]
    exact (BitVec.ne_not_self (by decide)).symm

/-- Settles O27: by what the store writes into the low nibble, and no nibble is its own complement. -/
theorem crcComplementLaw : Obligations.CrcComplementLaw := by
  intro b
  refine ⟨?_, crcVerify_crcStore b false, crcVerify_crcStore b true, crcVerify_iff b⟩
  rw [crcStore_b7_low, crcStore_b7_low]
  rfl

/-! ### Linearity (R154) -/

/-- What the bit shifted out and the input bit feed back into the register, when they differ. -/
def crcFeedback (b : Bool) : BitVec 4 := if b then 0b0011 else 0

theorem crcFeedback_xor : ∀ a b, crcFeedback (a ^^ b) = crcFeedback a ^^^ crcFeedback b := by decide

/-- The step without the 5-bit scratch (R150, the equivalent form). -/
theorem crcStep_eq_shift_xor_feedback :
    ∀ r d, crcStep r d = (r <<< 1) ^^^ crcFeedback (r.getLsbD 3 ^^ d) := by
  decide

theorem crcStep_xor (r q : BitVec 4) (d e : Bool) : crcStep (r ^^^ q) (d ^^ e) = crcStep r d ^^^ crcStep q e := by
  simp only [crcStep_eq_shift_xor_feedback, BitVec.shiftLeft_xor_distrib, BitVec.getLsbD_xor, crcFeedback_xor]
  ac_rfl

/-- One byte through the register. -/
def crcByte (r : BitVec 4) (b : Byte) : BitVec 4 := (bitsMsb b).foldl crcStep r

theorem crcByte_xor (r q : BitVec 4) (b c : Byte) : crcByte (r ^^^ q) (b ^^^ c) = crcByte r b ^^^ crcByte q c := by
  simp only [crcByte, bitsMsb, List.foldl, BitVec.getLsbD_xor, crcStep_xor]

theorem crc4_eq_foldl_crcByte (f : Frame) : crc4 f = [f.b0, f.b1, f.b2, f.b3, f.b4, f.b5, f.b6].foldl crcByte 0#4 := by
  simp only [crc4, Frame.crcBits, List.foldl_append]
  rfl

theorem crc4_xor (x y : Frame) : crc4 (x.xor y) = crc4 x ^^^ crc4 y := by
  simp only [crc4_eq_foldl_crcByte, Frame.xor, List.foldl, ← crcByte_xor, BitVec.xor_self]

/-- Frames that verify form a linear code: adding one to a frame does not change whether it verifies. -/
theorem crcVerify_xor {x : Frame} (hx : crcVerify x = true) (y : Frame) : crcVerify (x.xor y) = crcVerify y := by
  have hlow : (x.xor y).b7.extractLsb' 0 4 = crc4 x ^^^ y.b7.extractLsb' 0 4 := by
    rw [← (crcVerify_iff x).1 hx]
    exact BitVec.extractLsb'_xor
  rw [Bool.eq_iff_iff, crcVerify_iff, crcVerify_iff, hlow, crc4_xor, BitVec.xor_right_inj]

/-! ### Single-bit errors (R154) -/

/-- The covered bits of a frame with one covered bit set. -/
theorem crcBits_oneBit :
    ∀ k < 56, (Frame.oneBit k).crcBits = List.replicate k false ++ true :: List.replicate (55 - k) false := by
  decide

/-- The register stays 0 before the set bit. -/
theorem foldl_crcStep_zero (n : Nat) : (List.replicate n false).foldl crcStep 0 = 0 := by
  induction n with
  | zero => rfl
  | succ n ih => exact ih

/-- The values R154 lists: the register after the set bit and `d` more zero bits, for `d` from 0 to 14. -/
def singleBitCrcs : List (BitVec 4) :=
  [0x3#4, 0x6#4, 0xC#4, 0xB#4, 0x5#4, 0xA#4, 0x7#4, 0xE#4, 0xF#4, 0xD#4, 0x9#4, 0x1#4, 0x2#4, 0x4#4, 0x8#4]

theorem singleBitCrcs_ne_zero : ∀ i < 15, singleBitCrcs.getD i 0 ≠ 0 := by decide

/-- A zero bit takes each listed value to the next one, and the last to the first. -/
theorem crcStep_singleBitCrcs :
    ∀ i < 15, crcStep (singleBitCrcs.getD i 0) false = singleBitCrcs.getD ((i + 1) % 15) 0 := by
  decide

/-- The zero bits after the set bit take the register around the cycle of the listed values. -/
theorem foldl_crcStep_after_bit (d : Nat) :
    (true :: List.replicate d false).foldl crcStep 0 = singleBitCrcs.getD (d % 15) 0 := by
  induction d with
  | zero => decide
  | succ d ih =>
    rw [List.replicate_succ', ← List.cons_append, List.foldl_append, ih]
    exact (crcStep_singleBitCrcs _ (Nat.mod_lt _ (by decide))).trans (by rw [Nat.mod_add_mod])

theorem crc4_oneBit {k : Nat} (hk : k < 56) : crc4 (Frame.oneBit k) = singleBitCrcs.getD ((55 - k) % 15) 0 := by
  rw [crc4, Config.crcInit, crcBits_oneBit k hk, List.foldl_append, foldl_crcStep_zero, foldl_crcStep_after_bit]

theorem oneBit_b7 : ∀ k < 56, (Frame.oneBit k).b7 = 0 := by decide

/-- A single covered bit does not touch the stored nibble, and its checksum is not 0. -/
theorem crcVerify_oneBit {k : Nat} (hk : k < 56) : crcVerify (Frame.oneBit k) = false := by
  have hlow : (Frame.oneBit k).b7.extractLsb' 0 4 = 0 := by rw [oneBit_b7 k hk]; rfl
  rw [crcVerify_eq_false_iff, hlow, crc4_oneBit hk]
  exact (singleBitCrcs_ne_zero _ (Nat.mod_lt _ (by decide))).symm

/-- Settles O29: the checksum is linear bit by bit; after the set bit the register runs through a cycle of 15 values,
none of them 0; and the frames that verify form a linear code, of which no single-bit frame is one. -/
theorem crcDetectsSingleBitErrors : Obligations.CrcDetectsSingleBitErrors :=
  ⟨crc4_xor, fun _ hk _ => crc4_oneBit hk, fun _ _ hk hx => (crcVerify_xor hx _).trans (crcVerify_oneBit hk)⟩

end Sys2Proof.Machine

/-! The family 42_phy.md: the decoder's two results (R163 to R167, R169) and the underrun counters (R162). -/

namespace Sys2Proof.Machine

/-! ### The decoder's two results (R163, R166) -/

theorem firstLevelOk_iff {c : List Pulse} : firstLevelOk c = true ↔ ∀ q rest, c = q :: rest → q.level0 = true := by
  cases c <;> simp [firstLevelOk, Config.expectedFirstLevel]

/-- A capture with a right first level and a bit in every pulse decodes, and its size is its length. -/
theorem phyDecode_of_captureBits {cfg : Config} {c : List Pulse} {ds : List Bool} (hfirst : firstLevelOk c = true)
    (hbits : captureBits cfg c = some ds) (expected : Nat) :
    phyDecode cfg c expected = .ok (bytesOfBits (ds.take expected)) c.length := by
  simp only [phyDecode, hfirst, hbits, if_true]

theorem phyDecode_eq_symErr_iff {cfg : Config} {c : List Pulse} {expected : Nat} :
    phyDecode cfg c expected = .symErr ↔ firstLevelOk c = false ∨ ∃ q ∈ c, pulseBit cfg q = none := by
  rw [← captureBits_eq_none]
  cases hfirst : firstLevelOk c <;> cases hbits : captureBits cfg c <;> simp [phyDecode, hfirst, hbits]

/-! ### The round trip (R167, R170) -/

/-- Every sent pulse starts at the high level (R85). -/
theorem pulseOf_level0 (cfg : Config) (d : Bool) : (pulseOf cfg d).level0 = true := by cases d <;> rfl

theorem firstLevelOk_map_pulseOf (cfg : Config) (ds : List Bool) : firstLevelOk (ds.map (pulseOf cfg)) = true := by
  cases ds with
  | nil => rfl
  | cons d ds => exact beq_iff_eq.2 (pulseOf_level0 cfg d)

theorem captureBits_map_pulseOf {cfg : Config} (hw : cfg.wellFormed = true) (ds : List Bool) :
    captureBits cfg (ds.map (pulseOf cfg)) = some ds := by
  rw [captureBits_eq_some, List.map_map]
  exact List.map_congr_left fun d _ => pulseBit_pulseOf hw d

/-- Settles O32: each sent pulse carries its bit, and the bits of the bytes give the bytes back. -/
theorem phyRoundTrip : Obligations.PhyRoundTrip := by
  intro cfg x hw
  rw [phyEncode_all, phyDecode_of_captureBits (firstLevelOk_map_pulseOf cfg _) (captureBits_map_pulseOf hw _),
    List.length_map, ← bitsOfBytes_length, List.take_length, bytesOfBits_bitsOfBytes]

/-! ### Bad captures (R163 to R166) -/

/-- No symbol error: the high time lies in one of the two windows (R164), and the period in its own (R165). -/
def GoodPulse (cfg : Config) (q : Pulse) : Prop :=
  ((cfg.lhMin ≤ q.dur0 ∧ q.dur0 ≤ cfg.lhMax) ∨ (cfg.shMin ≤ q.dur0 ∧ q.dur0 ≤ cfg.shMax)) ∧
    cfg.spMin ≤ q.dur0 + q.dur1 ∧ q.dur0 + q.dur1 ≤ cfg.spMax

/-- The high time lies in the long window, so that a good pulse carries a 1 (R164). -/
def longHigh (cfg : Config) (q : Pulse) : Bool := decide (cfg.lhMin ≤ q.dur0 ∧ q.dur0 ≤ cfg.lhMax)

theorem pulseBit_of_good {cfg : Config} {q : Pulse} (h : GoodPulse cfg q) : pulseBit cfg q = some (longHigh cfg q) :=
  (pulseBit_eq cfg q).trans (if_pos h)

theorem pulseBit_of_not_good {cfg : Config} {q : Pulse} (h : ¬ GoodPulse cfg q) : pulseBit cfg q = none :=
  (pulseBit_eq cfg q).trans (if_neg h)

/-- Settles O33: a bad pulse carries no bit, and either fault fails the whole capture. -/
theorem badPulseFailsTheCapture : Obligations.BadPulseFailsTheCapture := by
  intro cfg c expected
  refine ⟨fun q hq hbad => ?_, ?_⟩
  · have hnot : ¬ GoodPulse cfg q := by
      rintro ⟨hwindow, hperiod⟩
      rcases hbad with ⟨hlong, hshort⟩ | hoff
      · exact hwindow.elim hlong hshort
      · exact hoff hperiod
    exact phyDecode_eq_symErr_iff.2 (.inr ⟨q, hq, pulseBit_of_not_good hnot⟩)
  · rintro q rest rfl hlevel
    have hfirst : firstLevelOk (q :: rest) = false := by rw [firstLevelOk, hlevel]; rfl
    exact phyDecode_eq_symErr_iff.2 (.inl hfirst)

/-! ### Good captures (R164, R166, R169) -/

theorem captureBits_of_good {cfg : Config} {c : List Pulse} (h : ∀ q ∈ c, GoodPulse cfg q) :
    captureBits cfg c = some (c.map (longHigh cfg)) := by
  rw [captureBits_eq_some, List.map_map]
  exact List.map_congr_left fun q hq => pulseBit_of_good (h q hq)

/-- Settles O34: the bytes come from the long-window bits of the first `expected` pulses. -/
theorem goodCaptureDecodes : Obligations.GoodCaptureDecodes := by
  intro cfg train expected hfirst hgood
  refine ⟨_, phyDecode_of_captureBits (firstLevelOk_iff.2 hfirst) (captureBits_of_good hgood) expected, ?_, ?_⟩
  · rw [bytesOfBits_length, List.length_take, List.length_map, Nat.min_comm]
  · intro j k hj hk q hq
    have hbit := bytesOfBits_getLsbD _ j k hk hj
    rw [List.getElem?_take] at hbit
    split at hbit
    · rw [List.getElem?_map, hq] at hbit
      exact (Option.some.inj hbit).symm
    · cases hbit

/-! ### The underrun counters (R162) -/

/-- Both transmit-underrun counters are 0. -/
def State.NoUnderrun (s : State) : Prop := s.chan.ctr.txund = 0 ∧ s.chan.sec.txund = 0

theorem ScFrame.keeps_noUnderrun {s t : State} (hf : ScFrame s t) (h : s.NoUnderrun) : t.NoUnderrun := by
  obtain ⟨hctr, hsec⟩ := h
  obtain ⟨kctr, ksec⟩ := hf.underrun
  exact ⟨kctr.trans hctr, ksec.elim (fun k => k.trans hsec) id⟩

/-- A command keeps each underrun counter or clears it: ENABLE the 1-second one, GET_STATS the lifetime one. -/
theorem exec_keeps_noUnderrun {i : Instr} {s t : State} (h : s.NoUnderrun) (hx : exec i s = .next t) :
    t.NoUnderrun := by
  obtain ⟨hctr, hsec⟩ := h
  rcases exec_next hx with ⟨code, words, rfl⟩ | ⟨-, -, -, -, rfl⟩ | ⟨-, -, -, rfl⟩ | ⟨-, -, -, -, rfl⟩ |
    ⟨high, low, -, rfl⟩ | ⟨v, -, rfl⟩ | ⟨words, rfl⟩ | ⟨p, P, Q, words, -, -, -, -, rfl⟩
  case inr.inl => exact ⟨hctr, rfl⟩
  case inr.inr.inr.inr.inr.inr.inl => exact ⟨rfl, hsec⟩
  all_goals exact ⟨hctr, hsec⟩

theorem moveStep_keeps_noUnderrun {m : Move} {s t : State} (h : s.NoUnderrun) (hx : moveStep m s = .next t) :
    t.NoUnderrun := by
  rcases moveStep_next hx with ⟨pick, -, hsc⟩ | ⟨k, w0, dw, i, -, -, -, hexec⟩ | ⟨k, rfl⟩ | ⟨ps, rfl⟩ | rfl | rfl
  · exact (scStep_frame hsc).keeps_noUnderrun h
  · exact exec_keeps_noUnderrun (s := { s with host := k }) h hexec
  all_goals exact h

/-- Settles O58: every move keeps each counter or clears it; TX counts no underrun,
as it sends whole trains (`phyEncode_all`). -/
theorem underrunCountersStayZero : Obligations.UnderrunCountersStayZero := by
  intro s t h hstep
  obtain ⟨-, dt, l, d, hmove⟩ := step_next hstep
  exact moveStep_keeps_noUnderrun (s := { s with inputs := l, draws := d, now := s.now + dt }) h hmove

end Sys2Proof.Machine

/-! The family 43_discovery.md: the steps D_START, D_EVAL and D_FINISH, and a failed discovery (R181, R183, R185, R186). -/

namespace Sys2Proof.Machine

section Steps

variable {s : State} {pick : Nat}

/-! ### SC's step in each phase of a discovery -/

theorem scStep_of_dStart (h : s.sc.phase = .dStart) : scStep pick s = .next (dStartStep s) := by simp only [scStep, h]

theorem scStep_of_dEval (h : s.sc.phase = .dEval) : scStep pick s = dEvalStep s := by simp only [scStep, h]

theorem scStep_of_dFinish (h : s.sc.phase = .dFinish) : scStep pick s = .next (dFinishStep s) := by simp only [scStep, h]

/-! ### The answer to the host whose DISCOVER is outstanding (R185, R186) -/

theorem State.respondDiscover_of_discReq {h : Nat} (hreq : s.sc.discReq = some h) (code : ResultCode) :
    s.respondDiscover code =
      { s with responses := s.responses ++ [⟨h, code, []⟩], sc := { s.sc with discReq := none } } := by
  simp only [State.respondDiscover, hreq, Option.map_some, Option.toList_some]

/-! ### The start of a discovery cycle (R181, R201, R202) -/

/-- `SCANCOUNT` of R22 can hold `CAP`, which R8 bounds by 256. -/
theorem toNat_ofNat_cap (hw : s.cfg.wellFormed = true) : (BitVec.ofNat 9 s.cap).toNat = s.cap := by
  obtain ⟨⟨-, hN⟩, -⟩ := (wellFormed_iff s.cfg).1 hw
  have hcap : s.cap ≤ 256 := Nat.succ_le_succ hN
  rw [BitVec.toNat_ofNat, Nat.mod_eq_of_lt (hcap.trans_lt (by decide))]

/-- A stopped countdown does not tick, shared or not (R202). -/
theorem clientTick_zero (cfg : Config) : clientTick cfg 0 = 0 := if_neg (fun h => h.2 rfl)

/-! ### The evaluation (R183) -/

/-- With no flag at the guard position `N`, `NSATS` of R22 holds the count, as the guard position bounds it (R183, R8). -/
theorem toNat_ofNat_satellitesFound (hw : s.cfg.wellFormed = true) {guard : Position}
    (hguard : s.pos? s.cfg.maxDevices = some guard) (hflag : guard.rxm.remoteCrcError = false) :
    (BitVec.ofNat 8 (satellitesFound s.positions)).toNat = satellitesFound s.positions := by
  obtain ⟨⟨-, hN⟩, -⟩ := (wellFormed_iff s.cfg).1 hw
  have hle : satellitesFound s.positions ≤ s.cfg.maxDevices := satellitesFound_le hguard hflag
  rw [BitVec.toNat_ofNat, Nat.mod_eq_of_lt (by omega)]

theorem dEvalStep_of_guard_flag {guard : Position} (hguard : s.pos? s.cfg.maxDevices = some guard)
    (hflag : guard.rxm.remoteCrcError = true) : dEvalStep s = .next (discoveryFail .excessiveDevices s) := by
  simp only [dEvalStep, hguard, hflag, if_true]

theorem dEvalStep_of_guard_plain {guard : Position} (hguard : s.pos? s.cfg.maxDevices = some guard)
    (hflag : guard.rxm.remoteCrcError = false) :
    dEvalStep s = .next (beginBuild { s with
      positions := s.positions.map cleanPosition
      chan := { s.chan with nsats := BitVec.ofNat 8 (satellitesFound s.positions) }
      sc := { s.sc with dstep := .clean } }) := by
  simp only [dEvalStep, hguard, hflag, Bool.false_eq_true, if_false]

end Steps

/-! ### The statements -/

/-- Settles O50: the guard's flag decides; a count the guard bounds is kept by the 8 bits of `NSATS`, and
`satellitesFound_spec` says which position it is. -/
theorem discoveryEvaluation : Obligations.DiscoveryEvaluation := by
  intro s pick guard hp hw _ hguard
  rw [scStep_of_dEval hp]
  refine ⟨dEvalStep_of_guard_flag hguard, fun hflag => ⟨BitVec.ofNat 8 (satellitesFound s.positions), ?_⟩⟩
  obtain ⟨hbefore, hat⟩ := satellitesFound_spec s.positions
  rw [toNat_ofNat_satellitesFound hw hguard hflag]
  exact ⟨satellitesFound_le hguard hflag, hbefore, hat, dEvalStep_of_guard_plain hguard hflag⟩

/-- Settles O52: the live positions are those below `NSATS`, and `keepBelow` keeps their bytes alone. -/
theorem discoveryFinish : Obligations.DiscoveryFinish := by
  intro s pick h hp hreq
  refine ⟨s.positions.mapIdx (finishPosition s.chan.nsats.toNat), s.txBuf.keepBelow (8 * s.chan.nsats.toNat),
    s.rxBuf.keepBelow (8 * s.chan.nsats.toNat), ?_, List.length_mapIdx, fun p P hP => ?_,
    fun a => ⟨Memory.read_keepBelow _ _ a, Memory.read_keepBelow _ _ a⟩⟩
  · rw [scStep_of_dFinish hp, dFinishStep, State.respondDiscover_of_discReq (by exact hreq), BitVec.ofNat_toNat]
  · have hget : s.positions[p]? = some P := hP
    rw [List.getElem?_mapIdx, hget, Option.map_some, finishPosition]

/-- Settles O49: `SCANCOUNT` holds `CAP`, so the build reads all positions, and the cleared countdown does not tick. -/
theorem discoveryStart : Obligations.DiscoveryStart := by
  intro s pick hp hw
  rw [scStep_of_dStart hp, dStartStep, beginBuild]
  simp only [State.scanned, toNat_ofNat_cap hw, clientTick_zero, probePosition]

/-- Settles O51: the reset of R38 and the answer to the waiting host. -/
theorem discoveryFailure : Obligations.DiscoveryFailure := by
  intro s code h hreq
  rw [discoveryFail, State.respondDiscover_of_discReq (by exact hreq), resetPositions]

end Sys2Proof.Machine

/-! The family 44_scan_loop.md: the steps of a scan cycle around CLASSIFY (R200 to R209, R216), and the self-tests (R204). -/

namespace Sys2Proof.Machine

section Steps

variable {s : State} {pick : Nat}

/-! ### SC's step in each phase of a scan cycle, and in the settle delays -/

theorem scStep_of_wait (h : s.sc.phase = .wait) : scStep pick s = .next (waitStep s) := by simp only [scStep, h]

theorem scStep_of_build (h : s.sc.phase = .build) : scStep pick s = buildStep pick s := by simp only [scStep, h]

theorem scStep_of_tx (h : s.sc.phase = .tx) : scStep pick s = txStep s := by simp only [scStep, h]

theorem scStep_of_rx (h : s.sc.phase = .rx) : scStep pick s = .next (rxStep s) := by simp only [scStep, h]

theorem scStep_of_classify (h : s.sc.phase = .classify) : scStep pick s = classifyStep s := by simp only [scStep, h]

theorem scStep_of_sched (h : s.sc.phase = .sched) : scStep pick s = .next (schedStep s) := by simp only [scStep, h]

theorem scStep_of_dSettle1 (h : s.sc.phase = .dSettle1) : scStep pick s = .next (settleStep .dEval s) := by
  simp only [scStep, h]

theorem scStep_of_dSettle2 (h : s.sc.phase = .dSettle2) : scStep pick s = .next (settleStep .dFinish s) := by
  simp only [scStep, h]

/-! ### The branches of WAIT, BUILD and SCHED (R200, R203, R205, R216) -/

theorem waitStep_of_disabled (h : s.chan.admin = false) : waitStep s = s.setPhase .stopped := by
  simp only [waitStep, h, Bool.false_eq_true, if_false]

theorem waitStep_of_enabled (h : s.chan.admin = true) :
    waitStep s = if s.chan.nextstart ≤ s.now then
      beginBuild { s with chan := { s.chan with nextstart := s.chan.nextstart + s.cfg.scanIntervalUs } } else s := by
  simp only [waitStep, h, if_true]

theorem buildStep_of_read {p : Nat} {g : Group} {P : Position} {n : Snap}
    (hread : s.sc.pending[pick % s.sc.pending.length]? = some (p, g)) (hP : s.pos? p = some P)
    (hn : s.sc.snap[p]? = some n) : buildStep pick s = .next (buildRead p g P n s) := by
  simp only [buildStep, hread, hP, hn]

theorem buildStep_of_done (hpending : s.sc.pending = []) (hfits : s.scanFits = true) :
    buildStep pick s = .next ((forPositions s.scanned buildFrame s).setPhase .tx) := by
  simp only [buildStep, hpending, List.getElem?_nil]
  exact overScanned_of_fits _ hfits

theorem schedStep_of_late (h : s.chan.nextstart < s.now) :
    schedStep s = (({ s with chan := { s.chan with nextstart := s.now } }).count .scantv).setPhase .wait := by
  simp only [schedStep, h, if_true]

theorem schedStep_of_on_time (h : ¬ s.chan.nextstart < s.now) : schedStep s = s.setPhase .wait := by
  simp only [schedStep, h, if_false]

end Steps

/-! ### The reads of a build (R201, R203) -/

theorem mem_pendingReads {n p : Nat} {g : Group} : (p, g) ∈ pendingReads n ↔ p < n := by
  refine ⟨fst_lt_of_mem_pendingReads, fun hp => List.mem_flatMap.2 ⟨p, List.mem_range.2 hp, ?_⟩⟩
  cases g <;> simp

/-- The three reads of a position are distinct, and those of two positions have nothing in common. -/
theorem nodup_pendingReads (n : Nat) : (pendingReads n).Nodup := by
  refine List.nodup_flatMap.2 ⟨fun p _ => by simp, List.nodup_range.imp fun {p q} hpq x hxp hxq => hpq ?_⟩
  have fst_eq : ∀ r, x ∈ [(r, Group.values), (r, .modes), (r, .flags)] → x.1 = r := by
    intro r hx
    simp only [List.mem_cons, List.not_mem_nil, or_false] at hx
    rcases hx with rfl | rfl | rfl <;> rfl
  exact (fst_eq p hxp).symm.trans (fst_eq q hxq)

/-- Settles O36: `mem_pendingReads` and `nodup_pendingReads`. -/
theorem buildReadsEveryGroupOnce : Obligations.BuildReadsEveryGroupOnce :=
  fun n => ⟨nodup_pendingReads n, fun _ _ => mem_pendingReads⟩

/-- The number that a free choice reads modulo the length reaches every element of a list (log 2). -/
theorem exists_getElem?_mod_length {α : Type} {l : List α} {x : α} (hx : x ∈ l) :
    ∃ i, l[i % l.length]? = some x := by
  obtain ⟨i, hi, hget⟩ := List.getElem_of_mem hx
  exact ⟨i, by rw [Nat.mod_eq_of_lt hi, List.getElem?_eq_getElem hi, hget]⟩

/-- Settles O37: the step is `buildRead` of the read picked, which writes what its group says. -/
theorem buildReadCopiesOneGroup : Obligations.BuildReadCopiesOneGroup := by
  refine ⟨fun s x hx => exists_getElem?_mod_length hx, fun s pick p g P n hp hread hP hn => ?_⟩
  rw [scStep_of_build hp, buildStep_of_read hread hP hn]
  refine ⟨?_, ?_, ?_⟩ <;> rintro rfl <;> rfl

/-! ### The statements on WAIT, RX and SCHED (R200, R209, R216) -/

/-- Settles O35: the branches of WAIT. -/
theorem waitStepStartsOrStops : Obligations.WaitStepStartsOrStops := by
  intro s pick hp
  rw [scStep_of_wait hp]
  split
  next hdisabled => rw [waitStep_of_disabled hdisabled]; rfl
  next henabled => rw [waitStep_of_enabled (eq_true_of_ne_false henabled)]; rfl

/-- Settles O41: the head and the tail of the receive FIFO. -/
theorem receiveTakesOldestCapture : Obligations.ReceiveTakesOldestCapture := by
  intro s pick hp
  rw [scStep_of_rx hp, rxStep]
  refine ⟨fun hfifo => ?_, fun c rest hfifo => ?_⟩
  · simp only [hfifo, List.tail_nil, List.headD_nil]
  · simp only [hfifo, List.tail_cons, List.headD_cons]

/-- Settles O48: the two branches of SCHED. -/
theorem scheduleStep : Obligations.ScheduleStep := by
  intro s pick hp
  rw [scStep_of_sched hp]
  split
  next hlate => rw [schedStep_of_late hlate]; rfl
  next hontime => rw [schedStep_of_on_time hontime]; rfl

/-! ### The frames of a build, and the train of a transmission (R205, R207, R208) -/

/-- Settles O39: the completion writes the frames of the scanned positions by `Memory.writeFrames`. -/
theorem buildCompletionWritesFrames : Obligations.BuildCompletionWritesFrames := by
  intro s pick hp hpending hwf hlen hsnap hcap
  rw [scStep_of_build hp, buildStep_of_done hpending ((State.scanFits_iff s).2 ⟨hlen, hsnap, hcap⟩),
    forPositions_buildFrame]
  obtain ⟨hmwf, hframe, hkeep⟩ :=
    Memory.writeFrames s.txBuf s.scanned (fun p => builtFrame (s.sc.snap.getD p .reset)) hwf
  refine ⟨_, rfl, hmwf, fun p n hps hn => ?_, hkeep⟩
  rw [hframe p hps, List.getD_eq_getElem?_getD, hn]
  rfl

/-- Settles O40: the train is one pulse for each bit of the scanned frames, in send order. -/
theorem transmitTrainLayout : Obligations.TransmitTrainLayout := by
  intro s pick hp hlen hsnap hcap
  refine ⟨(bitsOfBytes (txBytes s)).map (pulseOf s.cfg), ?_, ?_, fun p j k hps hj hk => ?_⟩
  · rw [scStep_of_tx hp, txStep_eq, overScanned_of_fits _ ((State.scanFits_iff s).2 ⟨hlen, hsnap, hcap⟩)]
    rfl
  · rw [List.length_map, bitsOfBytes_length, txBytes_length]
    omega
  · rw [show 64 * p + 8 * j + (7 - k) = 8 * (8 * p + j) + (7 - k) by omega, List.getElem?_map,
      bitsOfBytes_getElem? _ _ _ hk, txBytes_getElem? s hps hj]
    rfl

/-! ### The tail of a self-test (R202, R204) -/

/-- The state of a cleared self-test with `n` cycles of its tail to go. -/
def tailState (n : Nat) : SelfTest := if n = 0 then .inactive else .deactivating

@[simp] theorem tailState_zero : tailState 0 = .inactive := rfl

@[simp] theorem tailState_succ (n : Nat) : tailState (n + 1) = .deactivating := rfl

theorem ofNat_eq_zero_iff {n : Nat} (hn : n ≤ 255) : BitVec.ofNat 8 n = 0 ↔ n = 0 := by
  rw [← BitVec.toNat_inj, BitVec.toNat_ofNat, Nat.mod_eq_of_lt (by omega)]
  rfl

theorem ofNat_succ_sub_one (n : Nat) : BitVec.ofNat 8 (n + 1) - 1 = BitVec.ofNat 8 n := by
  rw [BitVec.ofNat_add]
  exact BitVec.add_sub_cancel _ _

theorem ite_ofNat_eq_zero {n : Nat} (hn : n ≤ 255) :
    (if BitVec.ofNat 8 n = 0 then SelfTest.inactive else .deactivating) = tailState n := by
  simp only [ofNat_eq_zero_iff hn, tailState]

theorem clientTick_of_own {cfg : Config} (h : cfg.clientCountdownShared = false) (count : Byte) :
    clientTick cfg count = count := by
  simp [clientTick, h]

theorem clientTick_of_shared {cfg : Config} (h : cfg.clientCountdownShared = true) {n : Nat} (hn : n ≤ 255) :
    clientTick cfg (BitVec.ofNat 8 n) = BitVec.ofNat 8 (n - 1) := by
  cases n with
  | zero => exact clientTick_zero cfg
  | succ n =>
    have hne : BitVec.ofNat 8 (n + 1) ≠ 0 := fun h0 => Nat.succ_ne_zero n ((ofNat_eq_zero_iff hn).1 h0)
    rw [clientTick, if_pos ⟨h, hne⟩, ofNat_succ_sub_one, Nat.add_sub_cancel]

section Tail

variable {cfg : Config} {n : Nat}

/-- A cycle of the server self-test after its flag was cleared takes one from the tail. -/
theorem serverTest_tailState (hn : n ≤ 255) :
    serverTest cfg false (tailState n) (BitVec.ofNat 8 n) = (tailState (n - 1), BitVec.ofNat 8 (n - 1)) := by
  cases n with
  | zero => rfl
  | succ n =>
    rw [tailState_succ, serverTest, if_neg Bool.false_ne_true]
    simp only [ofNat_succ_sub_one, Nat.add_sub_cancel, ite_ofNat_eq_zero (n := n) (by omega)]

theorem clientTest_tailState_of_own (hown : cfg.clientCountdownShared = false) (hn : n ≤ 255) (shared : Byte) :
    clientTest cfg false (tailState n) shared (BitVec.ofNat 8 n) =
      (tailState (n - 1), shared, BitVec.ofNat 8 (n - 1)) := by
  cases n with
  | zero => rfl
  | succ n =>
    rw [tailState_succ, clientTest, if_neg Bool.false_ne_true]
    simp only [hown, Bool.false_eq_true, if_false, ofNat_succ_sub_one, Nat.add_sub_cancel,
      ite_ofNat_eq_zero (n := n) (by omega)]

theorem clientTest_deactivating_of_shared (hshared : cfg.clientCountdownShared = true) (hn : n ≤ 255) (own : Byte) :
    clientTest cfg false .deactivating (BitVec.ofNat 8 n) own = (tailState n, BitVec.ofNat 8 n, own) := by
  rw [clientTest, if_neg Bool.false_ne_true]
  simp only [hshared, if_true, ite_ofNat_eq_zero hn]

/-- What counts down by one from each count up to a bound, and stays at 0, has counted down by `k` after `k` rounds. -/
theorem iterate_countdown {α : Type} {f : α → α} {g : Nat → α} {bound : Nat}
    (hstep : ∀ n ≤ bound, f (g n) = g (n - 1)) (k : Nat) (hn : n ≤ bound) : f^[k] (g n) = g (n - k) := by
  induction k generalizing n with
  | zero => rfl
  | succ k ih =>
    rw [Function.iterate_succ_apply, hstep n hn, ih (by omega), Nat.sub_sub, Nat.add_comm 1 k]

/-- A cycle of a position's server self-test whose flag is clear. -/
def serverCycle (cfg : Config) (x : SelfTest × Byte) : SelfTest × Byte := serverTest cfg false x.1 x.2

/-- A cycle of a position's client self-test whose flag is clear: the tick at the start of the build, then the FLAGS read. -/
def clientCycle (cfg : Config) (x : SelfTest × Byte × Byte) : SelfTest × Byte × Byte :=
  clientTest cfg false x.1 (clientTick cfg x.2.1) x.2.2

theorem serverTest_active (hT : cfg.selftestTail ≠ 0) (c : Byte) :
    serverTest cfg false .active c = (tailState cfg.selftestTail, BitVec.ofNat 8 cfg.selftestTail) := by
  simp only [serverTest, tailCount, tailState, Bool.false_eq_true, hT, if_false]

theorem clientTest_active_of_own (hT : cfg.selftestTail ≠ 0) (hown : cfg.clientCountdownShared = false)
    (shared own : Byte) : clientTest cfg false .active shared own =
      (tailState cfg.selftestTail, shared, BitVec.ofNat 8 cfg.selftestTail) := by
  simp only [clientTest, tailCount, tailState, Bool.false_eq_true, hT, hown, if_false]

theorem clientTest_active_of_shared (hT : cfg.selftestTail ≠ 0) (hshared : cfg.clientCountdownShared = true)
    (shared own : Byte) : clientTest cfg false .active shared own =
      (tailState cfg.selftestTail, BitVec.ofNat 8 cfg.selftestTail, own) := by
  simp only [clientTest, tailCount, tailState, Bool.false_eq_true, hT, hshared, if_false, if_true]

/-- The state and the countdown `k + 1` cycles after a flag was cleared, in the closed form of R204. -/
theorem tail_after {α : Type} (F : SelfTest → Byte → α) (T k : Nat) :
    F (tailState (T - k)) (BitVec.ofNat 8 (T - k)) =
      if k + 1 ≤ T then F .deactivating (BitVec.ofNat 8 (T + 1 - (k + 1))) else F .inactive 0 := by
  split
  next h => rw [Nat.add_sub_add_right, tailState, if_neg (by omega)]
  next h => rw [show T - k = 0 by omega]; rfl

theorem serverCycle_iterate_active (hle : cfg.selftestTail ≤ 255) (c : Byte) (k : Nat) :
    (serverCycle cfg)^[k + 1] (.active, c) =
      if k + 1 ≤ cfg.selftestTail then (.deactivating, BitVec.ofNat 8 (cfg.selftestTail + 1 - (k + 1)))
      else (.inactive, if cfg.selftestTail = 0 then c else 0) := by
  rw [Function.iterate_succ_apply]
  by_cases hT : cfg.selftestTail = 0
  · have hfirst : serverCycle cfg (.active, c) = (.inactive, c) := by simp [serverCycle, serverTest, hT]
    rw [hfirst, Function.iterate_fixed rfl, if_neg (by omega), if_pos hT]
  · have hcount := iterate_countdown (f := serverCycle cfg) (g := fun n => (tailState n, BitVec.ofNat 8 n))
      (fun n hn => serverTest_tailState hn) k hle
    rw [serverCycle, serverTest_active hT, hcount, if_neg hT]
    exact tail_after Prod.mk _ k

theorem clientCycle_iterate_active_of_own (hle : cfg.selftestTail ≤ 255) (hown : cfg.clientCountdownShared = false)
    (shared c : Byte) (k : Nat) :
    (clientCycle cfg)^[k + 1] (.active, shared, c) =
      if k + 1 ≤ cfg.selftestTail then (.deactivating, shared, BitVec.ofNat 8 (cfg.selftestTail + 1 - (k + 1)))
      else (.inactive, shared, if cfg.selftestTail = 0 then c else 0) := by
  have hcycle : ∀ st own, clientCycle cfg (st, shared, own) = clientTest cfg false st shared own :=
    fun st own => by rw [clientCycle, clientTick_of_own hown]
  rw [Function.iterate_succ_apply, hcycle]
  by_cases hT : cfg.selftestTail = 0
  · have hfirst : clientTest cfg false .active shared c = (.inactive, shared, c) := by simp [clientTest, hT]
    rw [hfirst, Function.iterate_fixed (hcycle _ _), if_neg (by omega), if_pos hT]
  · have hcount := iterate_countdown (f := clientCycle cfg) (g := fun n => (tailState n, shared, BitVec.ofNat 8 n))
      (fun n hn => (hcycle _ _).trans (clientTest_tailState_of_own hown hn shared)) k hle
    rw [clientTest_active_of_own hT hown, hcount, if_neg hT]
    exact tail_after (fun st count => (st, shared, count)) _ k

section Shared

variable (hshared : cfg.clientCountdownShared = true) (own : Byte)
include hshared

theorem clientCycle_inactive (hn : n ≤ 255) :
    clientCycle cfg (.inactive, BitVec.ofNat 8 n, own) = (.inactive, BitVec.ofNat 8 (n - 1), own) := by
  rw [clientCycle, clientTick_of_shared hshared hn]
  rfl

theorem clientCycle_deactivating (hn : n ≤ 255) :
    clientCycle cfg (.deactivating, BitVec.ofNat 8 n, own) = (tailState (n - 1), BitVec.ofNat 8 (n - 1), own) := by
  rw [clientCycle, clientTick_of_shared hshared hn, clientTest_deactivating_of_shared hshared (by omega)]

/-- The tail of a position is the shared countdown while no other position reloads it. -/
theorem clientCycle_iterate_tailState (hn : n ≤ 255) (k : Nat) :
    (clientCycle cfg)^[k] (tailState n, BitVec.ofNat 8 n, own) = (tailState (n - k), BitVec.ofNat 8 (n - k), own) := by
  refine iterate_countdown (g := fun n => (tailState n, BitVec.ofNat 8 n, own)) (fun n hn => ?_) k hn
  cases n with
  | zero => exact clientCycle_inactive hshared own hn
  | succ n => exact clientCycle_deactivating hshared own hn

theorem clientCycle_iterate_active_of_shared (hle : cfg.selftestTail ≤ 255) (hn : n ≤ 255) (k : Nat) :
    (clientCycle cfg)^[k + 1] (.active, BitVec.ofNat 8 n, own) =
      if k + 1 ≤ cfg.selftestTail then (.deactivating, BitVec.ofNat 8 (cfg.selftestTail + 1 - (k + 1)), own)
      else (.inactive, if cfg.selftestTail = 0 then BitVec.ofNat 8 (n - (k + 1)) else 0, own) := by
  rw [Function.iterate_succ_apply, clientCycle, clientTick_of_shared hshared hn]
  by_cases hT : cfg.selftestTail = 0
  · have hfirst : clientTest cfg false .active (BitVec.ofNat 8 (n - 1)) own =
        (.inactive, BitVec.ofNat 8 (n - 1), own) := by simp [clientTest, hT]
    have hcount := iterate_countdown (f := clientCycle cfg) (g := fun n => (.inactive, BitVec.ofNat 8 n, own))
      (fun n hn => clientCycle_inactive hshared own hn) k (show n - 1 ≤ 255 by omega)
    rw [hfirst, hcount, if_neg (by omega), if_pos hT, Nat.sub_sub, Nat.add_comm 1 k]
  · rw [clientTest_active_of_shared hT hshared, clientCycle_iterate_tailState hshared own hle, if_neg hT]
    exact tail_after (fun st count => (st, count, own)) _ k

theorem clientCycle_iterate_deactivating (hn : n ≤ 255) (k : Nat) :
    (clientCycle cfg)^[k + 1] (.deactivating, BitVec.ofNat 8 n, own) =
      (if k + 1 < n then .deactivating else .inactive, BitVec.ofNat 8 (n - (k + 1)), own) := by
  rw [Function.iterate_succ_apply, clientCycle_deactivating hshared own hn,
    clientCycle_iterate_tailState hshared own (by omega), Nat.sub_sub, Nat.add_comm 1 k]
  simp only [tailState, Nat.sub_eq_zero_iff_le, ← Nat.not_lt, ite_not]

end Shared

/-- Only a position that clears an ACTIVE test loads the shared countdown, and only for a tail of some length (R204). -/
theorem clientTest_shared (inv : Bool) (st : SelfTest) (shared own : Byte) :
    (clientTest cfg inv st shared own).2.1 =
      if cfg.clientCountdownShared = true ∧ inv = false ∧ st = .active ∧ 0 < cfg.selftestTail then
        BitVec.ofNat 8 cfg.selftestTail
      else shared := by
  cases inv with
  | true => simp [clientTest]
  | false =>
    cases st with
    | inactive => simp [clientTest]
    | active =>
      by_cases hT : cfg.selftestTail = 0
      · simp [clientTest, hT]
      · cases hshared : cfg.clientCountdownShared
        · simp [clientTest_active_of_own hT hshared]
        · simp [clientTest_active_of_shared hT hshared, Nat.pos_of_ne_zero hT]
    | deactivating => cases hshared : cfg.clientCountdownShared <;> simp [clientTest, hshared]

end Tail

/-- Settles O38: the single transitions are the branches of R204; `k` cycles of a cleared test count its tail down by `k`. -/
theorem selfTestTailLength : Obligations.SelfTestTailLength := by
  intro cfg c shared hle
  refine ⟨fun st => ⟨rfl, rfl⟩, rfl, rfl, fun inv st => clientTest_shared inv st shared c, fun k hk => ?_⟩
  obtain ⟨k, rfl⟩ := Nat.exists_eq_add_one.2 hk
  have hn : shared.toNat ≤ 255 := Nat.le_of_lt_succ shared.isLt
  refine ⟨serverCycle_iterate_active hle c k, fun hown => clientCycle_iterate_active_of_own hle hown shared c k,
    fun hshared => ⟨?_, ?_⟩⟩
  · have hactive := clientCycle_iterate_active_of_shared hshared c hle hn k
    rw [BitVec.ofNat_toNat, BitVec.setWidth_eq] at hactive
    exact hactive
  · have hdeactivating := clientCycle_iterate_deactivating hshared c hn k
    rw [BitVec.ofNat_toNat, BitVec.setWidth_eq] at hdeactivating
    exact hdeactivating

end Sys2Proof.Machine

/-! The family 44_scan_loop.md, the CLASSIFY step (R210 to R215). -/

namespace Sys2Proof.Machine

section Classify

variable (s : State)

/-! ### Part 1: the capture (R210) -/

theorem classifyCapture_of_symErr (h : phyDecode s.cfg s.sc.capture (64 * s.scanned) = .symErr) :
    classifyCapture s = (setCycErr .sym { s with rxFifo := [] }).count .rxsym := by
  simp only [classifyCapture, Config.frameBits, h]

theorem classifyCapture_of_badSize {bytes : List Byte} {n : Nat}
    (h : phyDecode s.cfg s.sc.capture (64 * s.scanned) = .ok bytes n) (hn : n ≠ 64 * s.scanned) :
    classifyCapture s = (setCycErr .size (if 64 * s.scanned < n then s.count .rxovr else s)).count .rxsize := by
  simp only [classifyCapture, Config.frameBits, h, if_neg hn]

theorem classifyCapture_of_good {bytes : List Byte}
    (h : phyDecode s.cfg s.sc.capture (64 * s.scanned) = .ok bytes (64 * s.scanned)) :
    classifyCapture s = { setCycErr .none s with
      rxBuf := (List.range s.scanned).foldl (fun m p => m.writeFrame p (frameAt bytes p)) s.rxBuf } := by
  simp only [classifyCapture, Config.frameBits, h, Nat.lt_irrefl, if_true, if_false, storeFrames, forPositions_store]
  rfl

@[simp] theorem classifyCapture_pos? (p : Nat) : (classifyCapture s).pos? p = s.pos? p := by
  obtain ⟨e, f, m, a, b, h⟩ := classifyCapture_frame s
  rw [h]
  rfl

@[simp] theorem classifyCapture_evq : (classifyCapture s).evq = s.evq := by
  obtain ⟨e, f, m, a, b, h⟩ := classifyCapture_frame s
  rw [h]

@[simp] theorem classifyCapture_discovering : (classifyCapture s).chan.discovering = s.chan.discovering := by
  obtain ⟨e, f, m, a, b, h⟩ := classifyCapture_frame s
  rw [h]

theorem classifyCapture_chan_of_good (h : (classifyCapture s).sc.cycErr = .none) : (classifyCapture s).chan = s.chan := by
  rcases classifyCapture_cases s with ⟨-, hsym⟩ | ⟨_, _, -, -, hsize⟩ | ⟨_, -, hgood⟩
  · rw [hsym] at h
    cases h
  · rw [hsize] at h
    cases h
  · rw [hgood]
    rfl

/-- The three channel counters that status categories feed. -/
theorem SlotCat.chan_eq_some {d : SlotCat} {c : Cat} (hd : d.chan = some c) : c = .rxcrc ∨ c = .rcrc ∨ c = .wd := by
  cases d with
  | sym | size => cases hd
  | crc => cases hd; exact .inl rfl
  | rcrc => cases hd; exact .inr (.inl rfl)
  | wd => cases hd; exact .inr (.inr rfl)

/-- Part 1 counts no error of a category that is counted per position. -/
theorem classifyCapture_counters_of_fed {d : SlotCat} {c : Cat} (hd : d.chan = some c) :
    (classifyCapture s).chan.ctr.get c = s.chan.ctr.get c ∧ (classifyCapture s).chan.sec.get c = s.chan.sec.get c := by
  obtain ⟨hsym, hsize, hovr⟩ : c ≠ .rxsym ∧ c ≠ .rxsize ∧ c ≠ .rxovr := by
    rcases SlotCat.chan_eq_some hd with rfl | rfl | rfl <;> decide
  rcases classifyCapture_cases s with ⟨-, h⟩ | ⟨_, n, -, -, h⟩ | ⟨_, -, h⟩ <;> rw [h]
  · simp [setCycErr, Counters.get_bump, hsym]
  · split <;> simp [setCycErr, Counters.get_bump, hsize, hovr]
  · exact ⟨rfl, rfl⟩

/-! ### Parts 1 to 5: what the step writes in each field -/

theorem classifyAll_sc : (classifyAll s).sc = (classifyCapture s).sc := by
  obtain ⟨ps, a, b, h, -⟩ := forPositions_classify s.scanned (classifyCapture s)
  rw [classifyAll, h]

theorem classifyAll_rxFifo : (classifyAll s).rxFifo = (classifyCapture s).rxFifo := by
  obtain ⟨ps, a, b, h, -⟩ := forPositions_classify s.scanned (classifyCapture s)
  rw [classifyAll, h]

theorem classifyAll_rxBuf : (classifyAll s).rxBuf = (classifyCapture s).rxBuf := by
  obtain ⟨ps, a, b, h, -⟩ := forPositions_classify s.scanned (classifyCapture s)
  rw [classifyAll, h]

theorem classifyAll_rxFrame (p : Nat) : (classifyAll s).rxFrame p = (classifyCapture s).rxFrame p := by
  rw [State.rxFrame, classifyAll_rxBuf, State.rxFrame]

theorem classifyAll_pos? (p : Nat) :
    (classifyAll s).pos? p = if p < s.scanned then (s.pos? p).map (classifiedAt (classifyCapture s) p) else s.pos? p := by
  obtain ⟨ps, a, b, h, -, hpos, -⟩ := forPositions_classify s.scanned (classifyCapture s)
  have hp := hpos p
  rw [classifyCapture_pos?] at hp
  rw [classifyAll, h]
  exact hp

theorem classifyAll_evq :
    (classifyAll s).evq =
      s.evq ++ (List.range s.scanned).flatMap fun p => ((s.pos? p).bind (eventAt (classifyCapture s) p)).toList := by
  obtain ⟨ps, a, b, h, -⟩ := forPositions_classify s.scanned (classifyCapture s)
  rw [classifyAll, h]
  simp only [classifyCapture_evq, classifyCapture_pos?]

/-- How many scanned positions newly raise the category `d`. -/
def newCount (d : SlotCat) : Nat :=
  ((List.range s.scanned).filter fun p => (s.pos? p).any fun P => newAt (classifyCapture s) p P d).length

/-- The channel counter a status category feeds rises by the number of positions that newly raise it (R213). -/
theorem classifyAll_counters_of_fed {d : SlotCat} {c : Cat} (hd : d.chan = some c) :
    (classifyAll s).chan.ctr.get c = (classifyCapture s).chan.ctr.get c + BitVec.ofNat 32 (newCount s d) ∧
    (classifyAll s).chan.sec.get c = (classifyCapture s).chan.sec.get c + BitVec.ofNat 32 (newCount s d) := by
  obtain ⟨ps, a, b, h, -, -, hcount⟩ := forPositions_classify s.scanned (classifyCapture s)
  have hfed : ∀ new : SlotCat → Bool, ((decide (c = .rxcrc) && new .crc) || (decide (c = .rcrc) && new .rcrc) ||
      (decide (c = .wd) && new .wd)) = new d := by
    cases d with
    | sym | size => cases hd
    | crc | rcrc | wd => cases hd; simp
  have hc := hcount c
  simp only [hfed, classifyCapture_pos?] at hc
  rw [classifyAll, h]
  exact hc

/-- A channel counter no status category feeds is moved by part 1 only. -/
theorem classifyAll_counters_of_not_fed {c : Cat} (hd : ∀ d : SlotCat, d.chan ≠ some c) :
    (classifyAll s).chan.ctr.get c = (classifyCapture s).chan.ctr.get c ∧
    (classifyAll s).chan.sec.get c = (classifyCapture s).chan.sec.get c := by
  obtain ⟨ps, a, b, h, -, -, hcount⟩ := forPositions_classify s.scanned (classifyCapture s)
  have hcrc : c ≠ .rxcrc := fun hc => hd .crc (hc ▸ rfl)
  have hrcrc : c ≠ .rcrc := fun hc => hd .rcrc (hc ▸ rfl)
  have hwd : c ≠ .wd := fun hc => hd .wd (hc ▸ rfl)
  rw [classifyAll, h]
  simpa [hcrc, hrcrc, hwd] using hcount c

/-! ### Parts 2 to 4 for one position (R211, R212, R213) -/

theorem unpackPosition_eq (e : CycErr) (b : Frame) (P : Position) :
    unpackPosition e b P =
      ⟨{ P with rxm := if e = .none then unpackFields b else P.rxm },
        e == .none && b.b0 != P.rxm.sensor, e == .none && !crcVerify b⟩ := by
  cases e <;> rfl

section Record

variable (p : Nat) (P : Position)

theorem classifiedAt_status (c : SlotCat) :
    hasCat (classifiedAt s p P).status c = raised s.sc.cycErr (unpackedAt s p P).crcErr (unpackedAt s p P).pos c :=
  hasCat_ofCats _ c

theorem classifiedAt_status_sym : hasCat (classifiedAt s p P).status .sym = (s.sc.cycErr == .sym) := by
  rw [classifiedAt_status]
  cases s.sc.cycErr <;> rfl

theorem classifiedAt_status_size : hasCat (classifiedAt s p P).status .size = (s.sc.cycErr == .size) := by
  rw [classifiedAt_status]
  cases s.sc.cycErr <;> rfl

theorem classifiedAt_status_crc : hasCat (classifiedAt s p P).status .crc =
    (s.sc.cycErr == .none && (s.rxFrame p).b7.extractLsb' 0 4 != crc4 (s.rxFrame p) && P.cliState == .inactive) := by
  rw [classifiedAt_status, unpackedAt]
  cases s.sc.cycErr <;> rfl

theorem classifiedAt_status_rcrc : hasCat (classifiedAt s p P).status .rcrc =
    (s.sc.cycErr == .none && (s.rxFrame p).b7.getLsbD 4 && P.srvState == .inactive) := by
  rw [classifiedAt_status, unpackedAt]
  cases s.sc.cycErr <;> rfl

theorem classifiedAt_status_wd : hasCat (classifiedAt s p P).status .wd =
    (s.sc.cycErr == .none && (s.rxFrame p).b7.getLsbD 5) := by
  rw [classifiedAt_status, unpackedAt]
  cases s.sc.cycErr <;> rfl

theorem newAt_eq (c : SlotCat) : newAt s p P c = (hasCat (classifiedAt s p P).status c && !hasCat P.dirty c) := by
  rw [classifiedAt_status, newAt, newlyRaised, unpackedAt, unpackPosition_eq]

theorem classifiedAt_dirty (c : SlotCat) :
    hasCat (classifiedAt s p P).dirty c =
      (hasCat (classifiedAt s p P).status c || (s.chan.discovering && hasCat P.dirty c)) := by
  rw [classifiedAt_status, classifiedAt, markPosition, hasCat_ofCats, unpackedAt, unpackPosition_eq]

theorem classifiedAt_sctr (c : SlotCat) :
    (classifiedAt s p P).sctr.get c =
      if hasCat (classifiedAt s p P).status c && !hasCat P.dirty c then P.sctr.get c + 1 else P.sctr.get c := by
  rw [← newAt_eq, newAt, classifiedAt, markPosition, SlotCounters.get_bumpAll, unpackedAt, unpackPosition_eq]

theorem classifiedAt_rxm :
    (classifiedAt s p P).rxm = if s.sc.cycErr = .none then unpackFields (s.rxFrame p) else P.rxm := by
  rw [classifiedAt, markPosition, unpackedAt, unpackPosition_eq]

/-! ### The event of one position (R214) -/

theorem anyCat_newAt :
    anyCat (newAt s p P) =
      [0, 1, 2, 3, 4].any fun k => (classifiedAt s p P).status.getLsbD k && !P.dirty.getLsbD k := by
  simp only [anyCat, newAt_eq, List.any_cons, List.any_nil, Bool.or_false, Bool.or_assoc]
  rfl

/-- A position's frame makes a SenseUpdate when it is free of errors and its sensor byte is new. -/
theorem senseCondition_iff :
    (s.sc.cycErr = .none ∧ !(unpackedAt s p P).crcErr ∧ !(classifiedAt s p P).rxm.remoteCrcError ∧
        !(classifiedAt s p P).rxm.watchdogError ∧ (unpackedAt s p P).changed) ↔
      s.sc.cycErr = .none ∧ crcVerify (s.rxFrame p) = true ∧ (s.rxFrame p).b7.getLsbD 4 = false ∧
        (s.rxFrame p).b7.getLsbD 5 = false ∧ (s.rxFrame p).b0 ≠ P.rxm.sensor := by
  refine and_congr_right fun he => ?_
  rw [classifiedAt_rxm, unpackedAt, unpackPosition_eq, if_pos he]
  simp [he, unpackFields]

theorem eventAt_eq :
    eventAt s p P =
      if s.chan.discovering = true then none
      else if [0, 1, 2, 3, 4].any fun k => (classifiedAt s p P).status.getLsbD k && !P.dirty.getLsbD k then
        some (.statusUpdate p (classifiedAt s p P).status)
      else if s.sc.cycErr = .none ∧ crcVerify (s.rxFrame p) = true ∧ (s.rxFrame p).b7.getLsbD 4 = false ∧
          (s.rxFrame p).b7.getLsbD 5 = false ∧ (s.rxFrame p).b0 ≠ P.rxm.sensor then
        some (.senseUpdate p (s.rxFrame p).b0)
      else none := by
  have hsensor : s.sc.cycErr = .none → (classifiedAt s p P).rxm.sensor = (s.rxFrame p).b0 := by
    intro he
    rw [classifiedAt_rxm, if_pos he]
    rfl
  simp only [eventAt, eventOf, anyCat_newAt]
  simp only [senseCondition_iff]
  split_ifs with hdisc hnew hsense
  · rfl
  · rfl
  · rw [hsensor hsense.1]
  · rfl

end Record

/-! ### A cycle-level error counts at no position -/

/-- After a cycle-level error no position raises a category that feeds a channel counter (R212). -/
theorem newCount_of_cycErr (he : (classifyCapture s).sc.cycErr ≠ .none) {d : SlotCat} {c : Cat} (hd : d.chan = some c) :
    newCount s d = 0 := by
  have hne : ((classifyCapture s).sc.cycErr == .none) = false := beq_false_of_ne he
  have hnew : ∀ p P, newAt (classifyCapture s) p P d = false := by
    intro p P
    rw [newAt_eq]
    cases d with
    | sym | size => cases hd
    | crc => rw [classifiedAt_status_crc, hne]; rfl
    | rcrc => rw [classifiedAt_status_rcrc, hne]; rfl
    | wd => rw [classifiedAt_status_wd, hne]; rfl
  simp [newCount, hnew]

theorem Counters.ext_get {a b : Counters} (h : ∀ c, a.get c = b.get c) : a = b := by
  cases a
  cases b
  rw [Counters.mk.injEq]
  exact ⟨h .txund, h .rxovr, h .scantv, h .rxsize, h .rxsym, h .wd, h .rxcrc, h .rcrc⟩

theorem classifyAll_counters_of_cycErr (he : (classifyCapture s).sc.cycErr ≠ .none) :
    (classifyAll s).chan.ctr = (classifyCapture s).chan.ctr ∧ (classifyAll s).chan.sec = (classifyCapture s).chan.sec := by
  have hget : ∀ c, (classifyAll s).chan.ctr.get c = (classifyCapture s).chan.ctr.get c ∧
      (classifyAll s).chan.sec.get c = (classifyCapture s).chan.sec.get c := by
    intro c
    by_cases hfed : ∃ d : SlotCat, d.chan = some c
    · obtain ⟨d, hd⟩ := hfed
      simpa [newCount_of_cycErr s he hd] using classifyAll_counters_of_fed s hd
    · exact classifyAll_counters_of_not_fed s fun d hd => hfed ⟨d, hd⟩
  exact ⟨Counters.ext_get fun c => (hget c).1, Counters.ext_get fun c => (hget c).2⟩

end Classify

/-! ### The statements -/

theorem Memory.read_eq_frame (m : Memory) (p : Nat) {j : Nat} (hj : j < 8) :
    m.read (8 * p + j) = (m.frame p).bytes.getD j 0 := by
  interval_cases j <;> rfl

theorem frameAt_bytes_getD (bytes : List Byte) (p : Nat) {j : Nat} (hj : j < 8) :
    (frameAt bytes p).bytes.getD j 0 = bytes.getD (8 * p + j) 0 := by
  interval_cases j <;> rfl

/-- Settles O42: part 1 in its three cases; parts 2 to 5 move counters after a good capture only. -/
theorem cycleLevelErrors : Obligations.CycleLevelErrors := by
  intro s hwf
  refine ⟨fun hdec => ?_, fun bytes n hdec => ⟨?_, fun hn => ?_, ?_⟩⟩
  · have hcap := classifyCapture_of_symErr s hdec
    obtain ⟨hctr, hsec⟩ := classifyAll_counters_of_cycErr s (by rw [hcap]; nofun)
    rw [classifyAll_sc, classifyAll_rxFifo, classifyAll_rxBuf, hctr, hsec, hcap]
    exact ⟨rfl, rfl, rfl, rfl, rfl⟩
  · rw [classifyAll_rxFifo]
    by_cases hn : n = 64 * s.scanned
    · subst hn
      rw [classifyCapture_of_good s hdec]
      rfl
    · rw [classifyCapture_of_badSize s hdec hn]
      split <;> rfl
  · have hcap := classifyCapture_of_badSize s hdec hn
    obtain ⟨hctr, hsec⟩ := classifyAll_counters_of_cycErr s (by rw [hcap]; nofun)
    rw [classifyAll_sc, classifyAll_rxBuf, hctr, hsec, hcap]
    split <;> exact ⟨rfl, rfl, rfl, rfl⟩
  · rintro rfl
    rw [classifyAll_sc, classifyAll_rxBuf, classifyCapture_of_good s hdec]
    obtain ⟨-, hframe, hkeep⟩ := Memory.writeFrames s.rxBuf s.scanned (frameAt bytes) hwf
    refine ⟨rfl, fun p j hp hj => ?_, hkeep⟩
    rw [Memory.read_eq_frame _ _ hj, hframe p hp, frameAt_bytes_getD _ _ hj]

/-- The five bits of a status bitmap and the counters of R29, by category. -/
theorem slotCat_of_mem {k : Nat} {counter : SlotCounters → Word}
    (h : (k, counter) ∈ [(0, SlotCounters.sym), (1, SlotCounters.size), (2, SlotCounters.crc), (3, SlotCounters.rcrc),
      (4, SlotCounters.wd)]) : ∃ c : SlotCat, k = c.bit ∧ counter = fun t => t.get c := by
  simp only [List.mem_cons, Prod.mk.injEq, List.not_mem_nil, or_false] at h
  rcases h with ⟨rfl, rfl⟩ | ⟨rfl, rfl⟩ | ⟨rfl, rfl⟩ | ⟨rfl, rfl⟩ | ⟨rfl, rfl⟩
  · exact ⟨.sym, rfl, rfl⟩
  · exact ⟨.size, rfl, rfl⟩
  · exact ⟨.crc, rfl, rfl⟩
  · exact ⟨.rcrc, rfl, rfl⟩
  · exact ⟨.wd, rfl, rfl⟩

/-- Settles O43: the record is `classifiedAt`, whose bitmaps and counters are given category by category. -/
theorem classifiedPositionRecord : Obligations.ClassifiedPositionRecord := by
  intro s p P hp hP
  rw [classifyAll_sc, classifyAll_rxFrame, classifyAll_pos?, if_pos hp, hP]
  refine ⟨classifiedAt (classifyCapture s) p P, (classifiedAt (classifyCapture s) p P).status.getLsbD, rfl,
    classifiedAt_status_sym _ p P, classifiedAt_status_size _ p P, classifiedAt_status_crc _ p P,
    classifiedAt_status_rcrc _ p P, classifiedAt_status_wd _ p P, fun k counter hk => ?_, classifiedAt_rxm _ p P, ?_⟩
  · obtain ⟨c, rfl, rfl⟩ := slotCat_of_mem hk
    have hdirty := classifiedAt_dirty (classifyCapture s) p P c
    rw [classifyCapture_discovering] at hdirty
    exact ⟨rfl, hdirty, classifiedAt_sctr _ p P c⟩
  · rw [classifiedAt, markPosition, unpackedAt, unpackPosition_eq]
    exact ⟨rfl, rfl, rfl, rfl, rfl⟩

/-- The status bits of the categories that are counted per position, and the counters they feed. -/
theorem fedCounter_of_mem {b : Nat} {counter : Counters → Word}
    (h : (b, counter) ∈ [(2, Counters.rxcrc), (3, Counters.rcrc), (4, Counters.wd)]) :
    ∃ (d : SlotCat) (c : Cat), d.chan = some c ∧ b = d.bit ∧ counter = fun t => t.get c := by
  simp only [List.mem_cons, Prod.mk.injEq, List.not_mem_nil, or_false] at h
  rcases h with ⟨rfl, rfl⟩ | ⟨rfl, rfl⟩ | ⟨rfl, rfl⟩
  · exact ⟨.crc, .rxcrc, rfl, rfl, rfl⟩
  · exact ⟨.rcrc, .rcrc, rfl, rfl, rfl⟩
  · exact ⟨.wd, .wd, rfl, rfl, rfl⟩

/-- The other counters, which no status category feeds. -/
theorem notFedCounter_of_mem {counter : Counters → Word}
    (h : counter ∈ [Counters.txund, Counters.rxovr, Counters.scantv, Counters.rxsize, Counters.rxsym]) :
    ∃ c : Cat, (∀ d : SlotCat, d.chan ≠ some c) ∧ counter = fun t => t.get c := by
  simp only [List.mem_cons, List.not_mem_nil, or_false] at h
  rcases h with rfl | rfl | rfl | rfl | rfl
  · exact ⟨.txund, fun d hd => by simpa using SlotCat.chan_eq_some hd, rfl⟩
  · exact ⟨.rxovr, fun d hd => by simpa using SlotCat.chan_eq_some hd, rfl⟩
  · exact ⟨.scantv, fun d hd => by simpa using SlotCat.chan_eq_some hd, rfl⟩
  · exact ⟨.rxsize, fun d hd => by simpa using SlotCat.chan_eq_some hd, rfl⟩
  · exact ⟨.rxsym, fun d hd => by simpa using SlotCat.chan_eq_some hd, rfl⟩

/-- Settles O44: part 1 leaves the fed counters alone, and parts 2 to 5 move no other; `newAt_eq` reads the newly raised
positions off the records before and after. -/
theorem newErrorsCountOncePerPosition : Obligations.NewErrorsCountOncePerPosition := by
  intro s _
  refine ⟨fun b counter k hb hk => ?_, fun he counter hcounter => ?_⟩
  · obtain ⟨d, c, hd, rfl, rfl⟩ := fedCounter_of_mem hb
    have hnew : k = newCount s d := by
      rw [hk, newCount]
      refine congrArg List.length (List.filter_congr fun p hp => ?_)
      rw [classifyAll_pos?, if_pos (List.mem_range.1 hp)]
      cases s.pos? p with
      | none => rfl
      | some P => exact (newAt_eq _ p P d).symm
    obtain ⟨hctr, hsec⟩ := classifyCapture_counters_of_fed s hd
    dsimp only
    rw [hnew, ← hctr, ← hsec]
    exact classifyAll_counters_of_fed s hd
  · obtain ⟨c, hc, rfl⟩ := notFedCounter_of_mem hcounter
    rw [classifyAll_sc] at he
    rw [← classifyCapture_chan_of_good s he]
    exact classifyAll_counters_of_not_fed s hc

/-- Settles O45: the events are those of `eventAt` in position order, and `eventAt_eq` says which they are. -/
theorem classifyEvents : Obligations.ClassifyEvents := by
  intro s _
  rw [classifyAll_evq]
  refine congrArg (s.evq ++ ·) (List.flatMap_congr fun p hp => ?_)
  rw [classifyAll_pos?, if_pos (List.mem_range.1 hp), classifyAll_sc, classifyAll_rxFrame]
  cases s.pos? p with
  | none => rfl
  | some P =>
    simp only [Option.bind_some, Option.map_some, eventAt_eq, classifyCapture_discovering]
    split_ifs <;> rfl

theorem classifyAll_eq (s : State) :
    classifyAll s = { s with
      positions := (classifyAll s).positions
      sc := { s.sc with cycErr := (classifyAll s).sc.cycErr }
      rxFifo := (classifyAll s).rxFifo
      rxBuf := (classifyAll s).rxBuf
      chan := { s.chan with ctr := (classifyAll s).chan.ctr, sec := (classifyAll s).chan.sec }
      evq := (classifyAll s).evq } := by
  obtain ⟨ps, e, f, m, a, b, v, h, -⟩ := classifyAll_frame s
  rw [h]

theorem classifyAll_now (s : State) : (classifyAll s).now = s.now := by rw [classifyAll_eq]

theorem classifyAll_cfg (s : State) : (classifyAll s).cfg = s.cfg := by rw [classifyAll_eq]

theorem length_classifyAll_positions (s : State) : (classifyAll s).positions.length = s.positions.length := by
  obtain ⟨ps, e, f, m, a, b, v, h, hlen⟩ := classifyAll_frame s
  rw [h]
  exact hlen

theorem classifyStep_of_fits {s : State} (h : s.scanFits = true) :
    classifyStep s =
      if s.chan.discovering then afterDiscoveryCycle (classifyAll s) else .next ((classifyAll s).setPhase .hyst) :=
  if_pos h

/-- After CLASSIFY in a discovery cycle SC waits for the settle delay of its step, or the discovery fails (R182, R184). -/
theorem afterDiscoveryCycle_of_dstep {t : State} {d : DStep} {after : Phase}
    (hd : (d = DStep.probe ∧ after = Phase.dSettle1) ∨ (d = DStep.clean ∧ after = Phase.dSettle2)) (h : t.sc.dstep = d) :
    afterDiscoveryCycle t =
      .next (if t.sc.cycErr = .none then settle after t else discoveryFail .generalLinkError t) := by
  rcases hd with ⟨rfl, rfl⟩ | ⟨rfl, rfl⟩ <;> simp only [afterDiscoveryCycle, h]

/-- Settles O46: `classifyAll_eq` is the frame of parts 1 to 5; part 6 and the settle steps are read off phase by phase. -/
theorem classifyContinues : Obligations.ClassifyContinues := by
  refine ⟨fun s => ⟨classifyAll_eq s, length_classifyAll_positions s, fun p hp => ?_⟩,
    fun s pick hphase hlen hsnap hcap => ?_, fun s pick p q hpq hphase => ?_⟩
  · rw [classifyAll_pos?, if_neg (Nat.not_lt.2 hp)]
  · rw [scStep_of_classify hphase, classifyStep_of_fits ((State.scanFits_iff s).2 ⟨hlen, hsnap, hcap⟩)]
    refine ⟨fun hdisc => ?_, fun hdisc d after hd hdstep => ?_⟩
    · rw [hdisc]
      rfl
    · have hstep : (classifyAll s).sc.dstep = d := by rw [classifyAll_eq]; exact hdstep
      rw [if_pos hdisc, afterDiscoveryCycle_of_dstep hd hstep]
      refine ⟨fun hnone => ?_, fun herr => ?_⟩
      · rw [if_pos hnone, ← classifyAll_now s, ← classifyAll_cfg s]
        rfl
      · rw [if_neg herr]
  · rcases hpq with ⟨rfl, rfl⟩ | ⟨rfl, rfl⟩
    · rw [scStep_of_dSettle1 hphase]; rfl
    · rw [scStep_of_dSettle2 hphase]; rfl

end Sys2Proof.Machine

/-! The family 45_health.md: the block test, the window boundary, and the health step (R230 to R233). -/

namespace Sys2Proof.Machine

/-! ### Writing `OPSTATE.ERRBLK` -/

@[simp] theorem Channel.errBlk_setErrBlk (c : Channel) (b : Bool) : (c.setErrBlk b).errBlk = b :=
  (setBit_getLsbD c.opstate 1 1 b (by decide)).trans (if_pos rfl)

/-- Writing bit `i` keeps the register when the bit has that value already. -/
theorem setBit_getLsbD_self {w : Nat} (x : BitVec w) {i : Nat} (h : i < w) : setBit x i (x.getLsbD i) = x := by
  refine BitVec.eq_of_getLsbD_eq fun j _ => (setBit_getLsbD x i j _ h).trans ?_
  split
  next hj => rw [hj]
  next => rfl

/-- Of two writes to one bit the second stands. -/
theorem setBit_setBit {w : Nat} (x : BitVec w) {i : Nat} (a b : Bool) (h : i < w) :
    setBit (setBit x i a) i b = setBit x i b := by
  refine BitVec.eq_of_getLsbD_eq fun j _ => ?_
  rw [setBit_getLsbD _ i j b h, setBit_getLsbD x i j b h, setBit_getLsbD x i j a h]
  split <;> rfl

theorem Channel.setErrBlk_of_errBlk {c : Channel} {b : Bool} (h : c.errBlk = b) : c.setErrBlk b = c := by
  have hbit : setBit c.opstate 1 b = c.opstate := h ▸ setBit_getLsbD_self c.opstate (by decide)
  rw [Channel.setErrBlk, hbit]

theorem Channel.setErrBlk_setErrBlk (c : Channel) (a b : Bool) : (c.setErrBlk a).setErrBlk b = c.setErrBlk b := by
  simp only [Channel.setErrBlk, setBit_setBit c.opstate a b (by decide : 1 < 3)]

/-! ### The two tests as one write of `ERRBLK` each (R231, R232) -/

/-- The condition of R231 on the sum, apart from `ERRBLK` itself. -/
def Channel.blocksAt (c : Channel) (sum : Nat) : Bool := decide (c.thHigh ≠ 0) && decide (c.thHigh.toNat ≤ sum)

theorem blockTest_eq (sum : Nat) (c : Channel) : blockTest sum c = c.setErrBlk (c.errBlk || c.blocksAt sum) := by
  have hcond : (!c.errBlk && c.thHigh != 0 && decide (c.thHigh.toNat ≤ sum)) = (!c.errBlk && c.blocksAt sum) := by
    rw [Bool.and_assoc, Channel.blocksAt, bne, Bool.beq_eq_decide_eq, ← decide_not]
  rw [blockTest, hcond]
  cases hblk : c.errBlk with
  | true => exact (Channel.setErrBlk_of_errBlk hblk).symm
  | false =>
    cases c.blocksAt sum with
    | true => rfl
    | false => exact (Channel.setErrBlk_of_errBlk hblk).symm

theorem windowTest_of_boundary {now : Nat} {c : Channel} (sum : Nat) (h : c.wstart + Config.windowUs ≤ now) :
    windowTest now sum c =
      { c.setErrBlk (c.errBlk && !decide (sum ≤ c.thLow.toNat)) with sec := .zero, wstart := now } := by
  rw [windowTest, if_pos h]
  cases hblk : c.errBlk with
  | false =>
    rw [Bool.false_and, Bool.false_and, Channel.setErrBlk_of_errBlk hblk]
    rfl
  | true =>
    cases hlow : decide (sum ≤ c.thLow.toNat) with
    | true => rfl
    | false =>
      rw [Bool.not_false, Bool.and_true, Channel.setErrBlk_of_errBlk hblk]
      rfl

theorem windowTest_of_within {now : Nat} {c : Channel} (sum : Nat) (h : ¬ c.wstart + Config.windowUs ≤ now) :
    windowTest now sum c = c := if_neg h

/-! ### The health step (R233) -/

theorem scStep_of_hyst {s : State} {pick : Nat} (h : s.sc.phase = .hyst) : scStep pick s = .next (hystStep s) := by
  simp only [scStep, h]

/-- Within the window the health step is the block test alone. -/
theorem healthEval_of_within {now : Nat} {c : Channel} (h : ¬ c.wstart + Config.windowUs ≤ now) :
    healthEval now c = c.setErrBlk (c.errBlk || c.blocksAt (errorSum c.sec)) := by
  rw [healthEval, blockTest_eq]
  exact windowTest_of_within _ h

/-- At a boundary `ERRBLK` is written once, after both tests: the sum may unblock what it has just blocked. -/
theorem healthEval_of_boundary {now : Nat} {c : Channel} (h : c.wstart + Config.windowUs ≤ now) :
    healthEval now c =
      { c.setErrBlk ((c.errBlk || c.blocksAt (errorSum c.sec)) && !decide (errorSum c.sec ≤ c.thLow.toNat)) with
        sec := .zero, wstart := now } := by
  rw [healthEval, blockTest_eq, windowTest_of_boundary _ (by exact h), Channel.errBlk_setErrBlk,
    Channel.setErrBlk_setErrBlk]
  rfl

/-- The boundary of R232, as a difference of times. -/
theorem window_le_sub_iff (now wstart : Nat) :
    (1000000 : Int) ≤ (now : Int) - (wstart : Int) ↔ wstart + Config.windowUs ≤ now := by
  rw [Config.windowUs]
  omega

/-- A write of `ERRBLK` leaves `DIS` and `CBL`. -/
theorem Channel.opstate_setErrBlk_bits (c : Channel) (b : Bool) :
    (c.setErrBlk b).opstate.getLsbD 0 = c.opstate.getLsbD 0 ∧
      (c.setErrBlk b).opstate.getLsbD 2 = c.opstate.getLsbD 2 ∧ (c.setErrBlk b).opstate.getLsbD 1 = b :=
  ⟨setBit_getLsbD c.opstate 1 0 b (by decide), setBit_getLsbD c.opstate 1 2 b (by decide), c.errBlk_setErrBlk b⟩

/-- Settles O47: at a boundary and within the window, `OPSTATE` is what one write of `ERRBLK` leaves. -/
theorem healthStep : Obligations.HealthStep := by
  rintro s pick sum blocked boundary hp rfl rfl rfl
  rw [scStep_of_hyst hp, hystStep]
  by_cases hb : s.chan.wstart + Config.windowUs ≤ s.now
  · rw [decide_eq_true ((window_le_sub_iff _ _).2 hb), healthEval_of_boundary hb]
    exact ⟨_, rfl, Channel.opstate_setErrBlk_bits _ _⟩
  · rw [decide_eq_false (mt (window_le_sub_iff _ _).1 hb), healthEval_of_within hb]
    obtain ⟨hdis, hcbl, herr⟩ :=
      s.chan.opstate_setErrBlk_bits (s.chan.errBlk || s.chan.blocksAt (errorSum s.chan.sec))
    exact ⟨_, rfl, hdis, hcbl, herr.trans (Bool.and_true _).symm⟩

end Sys2Proof.Machine

/-! The family 46_host_commands.md: the gate of R280, the channel commands (R281 to R287, R295 to R297), the slot writes and
reads (R288 to R293, R299 to R303), and what no command writes (R294). -/

namespace Sys2Proof.Machine

/-! ### The gate before a command's effect (R280, R352)

An error answers its code with no words: `State.reject` of the model is `State.answer` of the statements. -/

section Gate

variable {s t : State} {a : Byte} {pre : Bool} {effect : Position → Result}

theorem channelCommand_of_pre (hd : s.chan.discovering = false) (hpre : pre = true) :
    channelCommand pre s t = .next t := by
  simp only [channelCommand, hd, hpre, Bool.false_eq_true, if_false, if_true]

/-- Discovery and a false precondition of a channel command are refused alike. -/
theorem channelCommand_of_not_pre (h : ¬ (s.chan.discovering = false ∧ pre = true)) :
    channelCommand pre s t = .next (s.answer .wrongState []) := by
  rcases channelCommand_cases pre s t with hc | ⟨-, hpass⟩
  · exact hc
  · exact absurd hpass h

theorem channelCommand_of_discovering (hd : s.chan.discovering = true) :
    channelCommand pre s t = .next (s.answer .wrongState []) :=
  if_pos hd

theorem slotCommand_of_discovering (hd : s.chan.discovering = true) :
    slotCommand a s effect = .next (s.answer .wrongState []) :=
  if_pos hd

theorem slotCommand_of_noSuchSlot (hd : s.chan.discovering = false) (ha : s.chan.nsats.toNat ≤ a.toNat) :
    slotCommand a s effect = .next (s.answer .noSuchSlot []) := by
  simp only [slotCommand, hd, BitVec.le_def, ha, Bool.false_eq_true, if_false, if_true]
  rfl

theorem slotCommand_of_live {P : Position} (hd : s.chan.discovering = false) (ha : a.toNat < s.chan.nsats.toNat)
    (hP : s.pos? a.toNat = some P) : slotCommand a s effect = effect P := by
  simp only [slotCommand, hd, BitVec.le_def, Nat.not_le.2 ha, hP, Bool.false_eq_true, if_false]

end Gate

/-- A command with a slot address passes the gate of `slotCommand`. -/
theorem exec_of_slot {i : Instr} {a : Byte} (ha : i.slot? = some a) (s : State) :
    ∃ effect, exec i s = slotCommand a s effect := by
  cases i with
  | getSlotHandle | setActValue | setActMode | setSlotEnable | setInvServerCrc | setInvClientCrc | readSensor
  | readStatus | getSlotStats | readTxFrame | readRxFrame =>
    obtain rfl := Option.some.inj ha
    exact ⟨_, rfl⟩
  | _ => cases ha

/-- A command without a slot address passes the gate of `channelCommand`, but for the two that discovery does not gate. -/
theorem exec_of_no_slot {i : Instr} (ha : i.slot? = none) (hstats : i.mnemonic ≠ .getStats)
    (hstate : i.mnemonic ≠ .getChannelState) (s : State) : ∃ pre t, exec i s = channelCommand pre s t := by
  cases i with
  | enable | disable | discover | setThresholds | getSlotCount | setCtrlBlock => exact ⟨_, _, rfl⟩
  | getStats => exact absurd rfl hstats
  | getChannelState => exact absurd rfl hstate
  | _ => cases ha

/-- Settles O10: both gates look at `DISCOVERING` first, and only GET_STATS and GET_CHANNEL_STATE pass neither. -/
theorem wrongStateAnswers : Obligations.WrongStateAnswers := by
  intro s i hd hstats hstate
  cases ha : i.slot? with
  | some a =>
    obtain ⟨effect, he⟩ := exec_of_slot ha s
    exact he.trans (slotCommand_of_discovering hd)
  | none =>
    obtain ⟨pre, t, he⟩ := exec_of_no_slot ha hstats hstate s
    exact he.trans (channelCommand_of_discovering hd)

/-- Settles O11: every slot address goes through the lookup of `slotCommand`. -/
theorem noSuchSlotAnswers : Obligations.NoSuchSlotAnswers := by
  intro s i a hd ha hn
  obtain ⟨effect, he⟩ := exec_of_slot ha s
  exact he.trans (slotCommand_of_noSuchSlot hd hn)

/-! ### A step that is a host's command (R6, R280) -/

theorem hostStep_of_legal {h : Nat} {w dw : Word} {i : Instr} {s : State} (hw : s.sc.discReq ≠ some h)
    (hi : decode w dw = .ok i) : hostStep h w dw s = exec i { s with host := h } := by
  simp only [hostStep, if_neg hw, hi]

/-- Settles O6: the listed entry's move is the host's command, which `hostStep` executes. -/
theorem stepRunsDecodedCommand : Obligations.StepRunsDecodedCommand := by
  intro s dt h w dw rest i hwf hin hw hi
  rw [step_eq_moveStep_of_inputs hwf hin]
  refine hostStep_of_legal ?_ hi
  exact hw

/-! ### The channel commands (R281 to R286) -/

/-- ENABLE clears bit `DIS` of `OPSTATE` (R23). -/
theorem Channel.opstate_setDis_false (c : Channel) : (c.setDis false).opstate = c.opstate &&& 0b110 := rfl

/-- DISABLE sets bit `DIS` of `OPSTATE` (R23). -/
theorem Channel.opstate_setDis_true (c : Channel) : (c.setDis true).opstate = c.opstate ||| 0b001 := rfl

/-- SET_CTRL_BLOCK writes bit `CBL` of `OPSTATE` (R23). -/
theorem Channel.opstate_setCbl (c : Channel) (v : Bool) :
    (c.setCbl v).opstate = if v then c.opstate ||| 0b100 else c.opstate &&& 0b011 := by
  cases v <;> rfl

/-- ENABLE and DISCOVER need a disabled channel that has stopped. -/
theorem channelCommand_of_disabled_stopped {s t : State} (hd : s.chan.discovering = false)
    (ha : s.chan.admin = false) (hp : s.sc.phase = .stopped) :
    channelCommand (!s.chan.admin && s.sc.phase == .stopped) s t = .next t :=
  channelCommand_of_pre hd (by rw [ha, hp]; rfl)

theorem channelCommand_of_not_disabled_stopped {s t : State}
    (h : ¬ (s.chan.discovering = false ∧ s.chan.admin = false ∧ s.sc.phase = .stopped)) :
    channelCommand (!s.chan.admin && s.sc.phase == .stopped) s t = .next (s.answer .wrongState []) :=
  channelCommand_of_not_pre (by rwa [Bool.and_eq_true, Bool.not_eq_true', beq_iff_eq])

/-- Settles O13: the effect of ENABLE clears `DIS` alone in `OPSTATE`. -/
theorem enableStartsScanning : Obligations.EnableStartsScanning := by
  refine fun s => ⟨fun hd ha hp => ?_, channelCommand_of_not_disabled_stopped⟩
  rw [← Channel.opstate_setDis_false]
  exact channelCommand_of_disabled_stopped hd ha hp

/-- Settles O14: the effect of DISABLE sets `DIS` alone in `OPSTATE`, and its precondition is `ADMIN`. -/
theorem disableClearsAdmin : Obligations.DisableClearsAdmin := by
  refine fun s => ⟨fun hd ha => ?_, channelCommand_of_not_pre⟩
  rw [← Channel.opstate_setDis_true]
  exact channelCommand_of_pre hd ha

/-- Settles O15: the precondition of DISCOVER is ENABLE's, and its effect has no response. -/
theorem discoverStartsWithoutResponse : Obligations.DiscoverStartsWithoutResponse :=
  fun _ => ⟨channelCommand_of_disabled_stopped, channelCommand_of_not_disabled_stopped⟩

/-- Settles O16: discovery is the only gate of SET_THRESHOLDS, and the decoder inverts the encoder (O1). -/
theorem setThresholdsFromDataWord : Obligations.SetThresholdsFromDataWord :=
  ⟨fun _ _ _ => ⟨fun hd => channelCommand_of_pre hd rfl, channelCommand_of_discovering⟩,
    fun high low => commandRoundTrip (.setThresholds high low) 0⟩

/-- Settles O17: GET_STATS passes no gate, and its words are the counters before the reset. -/
theorem getStatsWordsAndReset : Obligations.GetStatsWordsAndReset :=
  fun _ _ => rfl

/-! ### The words of the responses (R94, R95) -/

/-- The word that is a field alone is the field's number. -/
theorem fieldAt_zero {w : Nat} (v : BitVec w) : fieldAt v 0 = BitVec.ofNat 32 v.toNat := by
  rw [fieldAt, BitVec.shiftLeft_zero, BitVec.ofNat_toNat]

/-- A field of a response word stands in its own bits alone. -/
theorem fieldAt_getLsbD_of_lt {w : Nat} (v : BitVec w) (i : Nat) {b : Nat} (hb : b < 32) :
    (fieldAt v i).getLsbD b = if i ≤ b ∧ b < i + w then v.getLsbD (b - i) else false := by
  rw [fieldAt_getLsbD]
  split
  next h => simp [hb, h.1]
  next h =>
    by_cases hi : i ≤ b
    · simp [BitVec.getLsbD_of_ge v (b - i) (by omega)]
    · simp [hi]

theorem bitAt_getLsbD_of_lt (x : Bool) (i : Nat) {b : Nat} (hb : b < 32) :
    (bitAt x i).getLsbD b = if b = i then x else false := by
  rw [bitAt_getLsbD]
  simp [hb]

/-- The two thresholds fill their word (R89, R95). -/
theorem fieldAt_or_fieldAt_eq_append (high low : BitVec 16) : fieldAt high 16 ||| fieldAt low 0 = high ++ low := by
  refine BitVec.eq_of_getLsbD_eq fun b hb => ?_
  rw [BitVec.getLsbD_or, fieldAt_getLsbD_of_lt _ _ hb, fieldAt_getLsbD_of_lt _ _ hb, BitVec.getLsbD_append]
  by_cases h : b < 16
  · simp [h, Nat.not_le.2 h]
  · simp [h, Nat.not_lt.1 h, hb]

/-- R28: bit 0 of a self-test state is set in ACTIVE alone. -/
theorem SelfTest.code_getElem_zero (x : SelfTest) : x.code[0] = (x == .active) := by cases x <;> rfl

/-- R28: bit 1 of a self-test state is set in DEACTIVATING alone. -/
theorem SelfTest.code_getElem_one (x : SelfTest) : x.code[1] = (x == .deactivating) := by cases x <;> rfl

/-- Settles O19: GET_CHANNEL_STATE passes no gate; its first word is read bit by bit. -/
theorem channelStateWords : Obligations.ChannelStateWords := by
  refine fun s => ⟨_, _, _, rfl, fun b hb => ?_, fieldAt_or_fieldAt_eq_append _ _, fieldAt_zero _⟩
  simp only [BitVec.getLsbD_or, bitAt_getLsbD_of_lt _ _ hb, fieldAt_getLsbD_of_lt _ _ hb]
  interval_cases b <;> simp

/-! ### The slot commands on a live slot (R287 to R303) -/

section Live

variable {s : State} {a : Byte} {P : Position} (hd : s.chan.discovering = false)
  (ha : a.toNat < s.chan.nsats.toNat) (hP : s.pos? a.toNat = some P)

include hd ha hP

theorem slotWrite_of_live (f : TxRegs → TxRegs) :
    slotWrite a f s = .next ({ s with
      positions := s.positions.set a.toNat { P with tx := { f P.tx with txDirty := true } } }.answer .ok []) :=
  slotCommand_of_live hd ha hP

theorem slotRead_of_live (words : Position → List Word) :
    slotRead a words s = .next (s.answer .ok (words P)) :=
  slotCommand_of_live hd ha hP

/-- A live slot's frame lies in the buffer when the buffer has one for every address below `CAP` (R60). -/
theorem frameRead_of_live (m : Memory) (words : Frame → List Word) (hcap : a.toNat < s.cap) :
    frameRead a m words s = .next (s.answer .ok (words (m.frame a.toNat))) := by
  have hframe : hostFrame s.cfg m a.toNat = some (m.frame a.toNat) := if_pos hcap
  rw [frameRead, slotCommand_of_live hd ha hP, hframe]
  rfl

end Live

/-- Settles O18: the gates of the three commands; a handle is the slot's address (D47). -/
theorem countHandleAndControlBlock : Obligations.CountHandleAndControlBlock := by
  refine fun s => ⟨fun hd => ⟨?_, fun a ha hP => ?_, fun a ha => slotCommand_of_noSuchSlot hd ha, fun v => ?_⟩,
    fun hd => ⟨channelCommand_of_discovering hd, fun _ => slotCommand_of_discovering hd,
      fun _ => channelCommand_of_discovering hd⟩⟩
  · rw [← fieldAt_zero]
    exact channelCommand_of_pre hd rfl
  · obtain ⟨P, hP⟩ := Option.isSome_iff_exists.1 hP
    rw [← fieldAt_zero]
    exact slotRead_of_live hd ha hP _
  · rw [← Channel.opstate_setCbl]
    exact channelCommand_of_pre hd rfl

/-- Settles O20: a slot write whose register set differs in one actuator value. -/
theorem setActValueWritesOneActuator : Obligations.SetActValueWritesOneActuator :=
  fun _ _ i v P hd ha hP =>
    ⟨P.tx.actVal.set i v, slotWrite_of_live hd ha hP fun x => { x with actVal := x.actVal.set i v },
      fun k => P.tx.actVal.get_set i k v⟩

/-- Settles O21: a slot write whose register set differs in one actuator mode. -/
theorem setActModeWritesOneMode : Obligations.SetActModeWritesOneMode :=
  fun _ _ i m P hd ha hP =>
    ⟨P.tx.actMode.set i m, slotWrite_of_live hd ha hP fun x => { x with actMode := x.actMode.set i m },
      fun k => P.tx.actMode.get_set i k m⟩

/-- Settles O22: three slot writes whose register sets differ in one flag. -/
theorem flagWritesWriteOneFlag : Obligations.FlagWritesWriteOneFlag :=
  fun _ _ v _ hd ha hP =>
    ⟨slotWrite_of_live hd ha hP fun x => { x with enable := v },
      slotWrite_of_live hd ha hP fun x => { x with invSrv := v },
      slotWrite_of_live hd ha hP fun x => { x with invCli := v }⟩

/-- Settles O23: both commands are slot reads; the words of READ_STATUS are read bit by bit. -/
theorem sensorAndStatusWords : Obligations.SensorAndStatusWords := by
  intro s a P hd ha hP
  refine ⟨?_, _, _, _, slotRead_of_live hd ha hP _, fun b hb => ?_, fun b hb => ?_, fun b hb => ?_⟩
  · rw [← fieldAt_zero]
    exact slotRead_of_live hd ha hP _
  · simp only [BitVec.getLsbD_or, fieldAt_getLsbD_of_lt _ _ hb]
    interval_cases b <;> simp
  · simp only [BitVec.getLsbD_or, bitAt_getLsbD_of_lt _ _ hb]
    interval_cases b <;> simp [Channel.slotCbl]
  · simp only [BitVec.getLsbD_or, fieldAt_getLsbD_of_lt _ _ hb, clientCount]
    interval_cases b <;> simp [SelfTest.code_getElem_zero, SelfTest.code_getElem_one]

/-- Settles O24: a slot command whose words are the counters before its write. -/
theorem slotStatsWordsAndReset : Obligations.SlotStatsWordsAndReset :=
  fun _ _ _ _ hd ha hP => slotCommand_of_live hd ha hP

/-- Settles O25: both commands read the frame at the slot's address, byte 0 highest. -/
theorem frameReadsAnswerTheBuffer : Obligations.FrameReadsAnswerTheBuffer := by
  intro s a hd ha hP hcap
  obtain ⟨P, hP⟩ := Option.isSome_iff_exists.1 hP
  exact ⟨frameRead_of_live hd ha hP _ _ hcap, frameRead_of_live hd ha hP _ _ hcap⟩

/-! ### What a failed command changes, and what no command writes (R285, R294) -/

/-- The response a log has gained over another is the one last given. -/
theorem State.eq_response_of_respond {s u : State} {code : ResultCode} {words : List Word} {r : Response}
    (hu : u.responses = s.responses) (h : (u.respond code words).responses = s.responses ++ [r]) :
    r = ⟨u.host, code, words⟩ := by
  rw [State.respond_responses, hu] at h
  exact (List.singleton_inj.1 (List.append_cancel_left h)).symm

/-- Settles O12: of the effects in `exec_next` DISCOVER's has no response and the others' code is OK, so a command that
answers another code only answered. -/
theorem failedCommandChangesNothing : Obligations.FailedCommandChangesNothing := by
  intro s t i r hx hr hcode
  have absurd_ok : ∀ {u : State} {words : List Word}, u.responses = s.responses → t ≠ u.respond .ok words := by
    rintro u words hu rfl
    exact hcode (State.eq_response_of_respond hu hr ▸ rfl)
  rcases exec_next hx with ⟨code, words, rfl⟩ | ⟨-, -, -, -, he⟩ | ⟨-, -, -, he⟩ | ⟨-, -, -, -, he⟩ |
    ⟨high, low, -, he⟩ | ⟨v, -, he⟩ | ⟨words, he⟩ | ⟨p, P, Q, words, -, -, -, -, he⟩
  case inl =>
    rw [State.eq_response_of_respond rfl hr]
    rfl
  case inr.inr.inr.inl =>
    subst he
    simp at hr
  all_goals exact absurd he (absurd_ok rfl)

theorem Position.HostWrite.refl (P : Position) : P.HostWrite P :=
  ⟨rfl, rfl, rfl, rfl, rfl, rfl, rfl, rfl, id⟩

/-- Outside the slot a command addresses every record stays, and there it is a host's write. -/
theorem hostWrite_of_setPos {s : State} {p q : Nat} {P Q R R' : Position} (hP : s.pos? p = some P) (hQ : P.HostWrite Q)
    (hR : s.pos? q = some R) (hR' : (s.setPos p Q).pos? q = some R') : R.HostWrite R' := by
  change (s.positions.set p Q)[q]? = some R' at hR'
  by_cases hpq : p = q
  · subst hpq
    obtain rfl : P = R := Option.some.inj (hP.symm.trans hR)
    rw [List.getElem?_set_self (List.getElem?_eq_some_iff.1 hP).1] at hR'
    exact Option.some.inj hR' ▸ hQ
  · rw [List.getElem?_set_ne hpq] at hR'
    exact Option.some.inj (hR.symm.trans hR') ▸ .refl R

/-- Settles O26: no effect in `exec_next` writes a field named here, and its one write of a record is a `HostWrite`. -/
theorem fieldsAHostCannotWrite : Obligations.FieldsAHostCannotWrite := by
  intro s t i hx
  have same : ∀ p P Q, s.pos? p = some P → s.pos? p = some Q → P.HostWrite Q :=
    fun p P Q hP hQ => Option.some.inj (hP.symm.trans hQ) ▸ .refl P
  rcases exec_next hx with ⟨code, words, rfl⟩ | ⟨-, -, -, -, rfl⟩ | ⟨-, -, -, rfl⟩ | ⟨-, -, -, -, rfl⟩ |
    ⟨high, low, -, rfl⟩ | ⟨v, -, rfl⟩ | ⟨words, rfl⟩ | ⟨p, P, Q, words, hP, -, -, hQ, rfl⟩
  case inr.inr.inr.inr.inr.inr.inr =>
    exact ⟨⟨rfl, rfl, rfl, rfl, rfl, rfl, rfl, rfl, rfl, rfl⟩, ⟨rfl, rfl, rfl, rfl⟩, List.length_set,
      fun _ _ _ hR hR' => hostWrite_of_setPos hP hQ hR hR'⟩
  all_goals
    exact ⟨⟨rfl, rfl, rfl, rfl, rfl, rfl, rfl, rfl, rfl, rfl⟩, ⟨rfl, rfl, rfl, rfl⟩, rfl, same⟩

theorem exec_nsats {i : Instr} {s t : State} (hx : exec i s = .next t) : t.chan.nsats = s.chan.nsats := by
  obtain ⟨-, ⟨hn, -⟩, -⟩ := fieldsAHostCannotWrite s t i hx
  exact hn

/-- Settles O60: no move but SC's writes `NSATS`, and of SC's steps only those of `ScFrame.nsats`. -/
theorem onlyDiscoveryChangesSlotCount : Obligations.OnlyDiscoveryChangesSlotCount := by
  intro s t hstep hne
  obtain ⟨-, dt, l, d, hmove⟩ := step_next hstep
  rcases moveStep_next hmove with ⟨pick, hm, hsc⟩ | ⟨k, w0, dw, i, -, -, -, hexec⟩ | ⟨k, rfl⟩ | ⟨ps, rfl⟩ | rfl | rfl
  · exact ⟨⟨pick, hm⟩, (scStep_frame hsc).nsats.resolve_left hne⟩
  · exact absurd (exec_nsats hexec) hne
  all_goals exact absurd rfl hne

end Sys2Proof.Machine

/-! The family 60_exceptions.md: the block has no run-time fault (R340, R360), and a discovery makes no event (R349). -/

namespace Sys2Proof.Machine

/-! ### What the invariant gives an access to an array (R20, R31, R60) -/

section Arrays

variable {s : State}

theorem State.Inv.exists_pos (h : s.Inv) {p : Nat} (hp : p < s.cap) : ∃ P, s.pos? p = some P :=
  ⟨_, List.getElem?_eq_getElem (h.positionsLen.symm ▸ hp)⟩

theorem State.Inv.exists_snap (h : s.Inv) {p : Nat} (hp : p < s.cap) : ∃ n, s.sc.snap[p]? = some n :=
  ⟨_, List.getElem?_eq_getElem (h.snapLen.symm ▸ hp)⟩

theorem State.Inv.scanFits (h : s.Inv) : s.scanFits = true :=
  (State.scanFits_iff s).2 ⟨h.positionsLen.symm ▸ h.scanned_le, h.snapLen.symm ▸ h.scanned_le, h.scanned_le⟩

/-- Every live slot is one of the `CAP` positions (R36 item 3). -/
theorem State.Inv.lt_cap_of_live (h : s.Inv) {p : Nat} (hp : s.live p) : p < s.cap := by
  obtain ⟨hcap, -⟩ := h.cap_le
  have hle := h.nsatsLe
  have hlt : p < s.chan.nsats.toNat := hp
  omega

end Arrays

/-! ### Every command answers (R280, R340) -/

theorem channelCommand_answers (pre : Bool) (s t : State) : ∃ u, channelCommand pre s t = .next u := by
  rcases channelCommand_cases pre s t with hc | ⟨hc, -, -⟩ <;> exact ⟨_, hc⟩

section Commands

variable {s : State}

/-- A slot command answers if its effect on every existing position does: a live slot has its record. -/
theorem slotCommand_answers (h : s.Inv) {a : Byte} {effect : Position → Result}
    (heffect : ∀ P, a.toNat < s.cap → ∃ t, effect P = .next t) : ∃ t, slotCommand a s effect = .next t := by
  rcases slotCommand_cases a s effect with hc | hc | ⟨P, hc, -, -, hlive⟩ | ⟨-, hnone, hlive⟩
  · exact ⟨_, hc⟩
  · exact ⟨_, hc⟩
  · exact hc ▸ heffect P (h.lt_cap_of_live hlive)
  · obtain ⟨P, hP⟩ := h.exists_pos (h.lt_cap_of_live hlive)
    cases hnone.symm.trans hP

/-- A frame read answers: the frame of an existing position is in the buffer (R60). -/
theorem frameRead_answers (h : s.Inv) (a : Byte) (m : Memory) (words : Frame → List Word) :
    ∃ t, frameRead a m words s = .next t := by
  refine slotCommand_answers h fun _ ha => ?_
  rw [hostFrame, if_pos (by exact ha)]
  exact ⟨_, rfl⟩

theorem exec_answers (h : s.Inv) (i : Instr) : ∃ t, exec i s = .next t := by
  cases i with
  | enable | disable | discover | setThresholds | getSlotCount | setCtrlBlock => exact channelCommand_answers _ s _
  | getStats | getChannelState => exact ⟨_, rfl⟩
  | getSlotHandle | setActValue | setActMode | setSlotEnable | setInvServerCrc | setInvClientCrc | readSensor
  | readStatus | getSlotStats => exact slotCommand_answers h fun _ _ => ⟨_, rfl⟩
  | readTxFrame | readRxFrame => exact frameRead_answers h _ _ _

end Commands

/-! ### Every step of SC answers (R201 to R215, R183) -/

section Steps

variable {s : State}

/-- A pending read is of a scanned position, which has its record and its snapshot; with none pending the scan fits. -/
theorem buildStep_answers (h : s.Inv) (pick : Nat) : ∃ t, buildStep pick s = .next t := by
  by_cases hpending : s.sc.pending = []
  · exact ⟨_, buildStep_of_done hpending h.scanFits⟩
  · have hi : pick % s.sc.pending.length < s.sc.pending.length := Nat.mod_lt _ (List.length_pos_iff.2 hpending)
    have hp := (h.pendingScanned _ (List.getElem_mem hi)).trans_le h.scanned_le
    obtain ⟨P, hP⟩ := h.exists_pos hp
    obtain ⟨n, hn⟩ := h.exists_snap hp
    exact ⟨_, buildStep_of_read (List.getElem?_eq_getElem hi) hP hn⟩

theorem txStep_answers (h : s.Inv) : ∃ t, txStep s = .next t :=
  ⟨_, (txStep_eq s).trans (overScanned_of_fits _ h.scanFits)⟩

/-- A discovery cycle has its continuation: `DSTEP` is PROBE or CLEAN. -/
theorem afterDiscoveryCycle_answers (hstep : s.sc.dstep ≠ .none) : ∃ t, afterDiscoveryCycle s = .next t := by
  cases hd : s.sc.dstep with
  | none => exact absurd hd hstep
  | probe => exact ⟨_, afterDiscoveryCycle_of_dstep (.inl ⟨rfl, rfl⟩) hd⟩
  | clean => exact ⟨_, afterDiscoveryCycle_of_dstep (.inr ⟨rfl, rfl⟩) hd⟩

theorem classifyStep_answers (h : s.Inv) (hp : s.sc.phase = .classify) : ∃ t, classifyStep s = .next t := by
  obtain ⟨-, -, hdisc⟩ := classifyAll_scFrame s hp
  rw [classifyStep_of_fits h.scanFits]
  split
  next hd => exact afterDiscoveryCycle_answers ((classifyAll_keeps_inv h).dstepIff.1 (hdisc.trans hd))
  next => exact ⟨_, rfl⟩

/-- The guard position `N` is the last of the `CAP` positions, so D_EVAL finds its record. -/
theorem dEvalStep_answers (h : s.Inv) : ∃ t, dEvalStep s = .next t := by
  obtain ⟨guard, hguard⟩ := h.exists_pos (Nat.lt_succ_self s.cfg.maxDevices)
  cases hflag : guard.rxm.remoteCrcError
  · exact ⟨_, dEvalStep_of_guard_plain hguard hflag⟩
  · exact ⟨_, dEvalStep_of_guard_flag hguard hflag⟩

theorem scStep_answers (h : s.Inv) (pick : Nat) : ∃ t, scStep pick s = .next t := by
  cases hp : s.sc.phase with
  | build => exact scStep_of_build hp ▸ buildStep_answers h pick
  | tx => exact scStep_of_tx hp ▸ txStep_answers h
  | classify => exact scStep_of_classify hp ▸ classifyStep_answers h hp
  | dEval => exact scStep_of_dEval hp ▸ dEvalStep_answers h
  | _ =>
    rw [scStep, hp]
    exact ⟨_, rfl⟩

end Steps

/-! ### Every agent answers (R6, R360) -/

theorem hostStep_answers {s : State} (h : s.Inv) (k : Nat) (w dw : Word) : ∃ t, hostStep k w dw s = .next t := by
  unfold hostStep
  split
  · exact ⟨_, rfl⟩
  · split
    next i _ => exact exec_answers (s := { s with host := k }) { h with } i
    next => exact ⟨_, rfl⟩

theorem moveStep_answers {s : State} (h : s.Inv) (m : Move) : ∃ t, moveStep m s = .next t := by
  cases m with
  | sc pick => exact scStep_answers h pick
  | host k w dw => exact hostStep_answers h k w dw
  | envPut | takeEvent | elapse => exact ⟨_, rfl⟩

/-- Settles O56: the invariant admits the configuration and does not name the schedule or the time, and every move answers. -/
theorem noRunTimeFault : Obligations.NoRunTimeFault := by
  intro s h
  obtain ⟨dt, l, d, hstep⟩ := step_eq_move h.cfgOk
  rw [hstep]
  exact moveStep_answers (s := { s with inputs := l, draws := d, now := s.now + dt }) { h with } _

/-! ### No event during discovery (R349) -/

theorem exec_evq {i : Instr} {s t : State} (hx : exec i s = .next t) : t.evq = s.evq := by
  obtain ⟨⟨-, -, -, -, -, -, hevq, -⟩, -⟩ := fieldsAHostCannotWrite s t i hx
  exact hevq

/-- Settles O59: SC makes no event during discovery (`ScFrame.events`), no command makes one, and a host's consumption takes
the head of the queue. -/
theorem noEventsDuringDiscovery : Obligations.NoEventsDuringDiscovery := by
  intro s t hd hstep
  obtain ⟨-, dt, l, d, hmove⟩ := step_next hstep
  rcases moveStep_next hmove with ⟨pick, -, hsc⟩ | ⟨k, w0, dw, i, -, -, -, hexec⟩ | ⟨k, rfl⟩ | ⟨ps, rfl⟩ | rfl | rfl
  · exact .inl ((scStep_frame hsc).events hd)
  · exact .inl ((exec_evq hexec).trans rfl)
  · exact .inl rfl
  · exact .inl rfl
  · exact .inr rfl
  · exact .inl rfl

end Sys2Proof.Machine
